-- ==== Sys2Proof/Word.lean ====
section
/-!
DEFINITION. The integers of the block: `XLEN`-bit two's-complement numbers, held as the integer they stand for.

An operand, a result, a cell's value, an address, an operation code: each is an `XLEN`-bit pattern read as a signed number
(spec/00_scope.md R12). The width is a parameter of the block (R7, R8), so a value is an `Int` and the width is an argument of the
operations that need it. `wrap` narrows an exact result to the width (R13, R129); the bit view of a value is a `BitVec`.
-/

namespace Sys2Proof

/-- `MIN`, the least `xlen`-bit signed number (R12). -/
def minInt (xlen : Nat) : Int := -((2 ^ (xlen - 1) : Nat) : Int)

/-- `MAX`, the greatest `xlen`-bit signed number (R12). -/
def maxInt (xlen : Nat) : Int := ((2 ^ (xlen - 1) : Nat) : Int) - 1

/-- The value lies in `MIN..MAX` (R12, R128). -/
def inRange (xlen : Nat) (v : Int) : Bool := decide (minInt xlen ≤ v ∧ v ≤ maxInt xlen)

/-- `wrap(e)`: the integer in `MIN..MAX` congruent to the exact integer `e` modulo `2^XLEN` (R13). -/
def wrap (xlen : Nat) (e : Int) : Int := Int.bmod e (2 ^ xlen)

/-- The two's-complement pattern of a value, bit 0 least significant (R12). -/
def toBits (xlen : Nat) (v : Int) : BitVec xlen := BitVec.ofInt xlen v

/-- The signed value a pattern stands for (R12). -/
def ofBits {xlen : Nat} (b : BitVec xlen) : Int := b.toInt

end Sys2Proof
end

