-- ==== Sys2Proof/Config.lean ====
section
/-!
DEFINITION. The implementation parameters of the block (spec/00_scope.md R7, R8).

They are fixed for an instance: no command changes them (spec/10_state.md R20). `LATENCY` is left out: no rule depends on it
and a model keeps no time (spec/70_reset_and_hazards.md R220).
-/

namespace Sys2Proof

/-- What a flag read answers while the status register has never been written: the parameter `FLAG_GET_FRESH` (R7, R31). -/
inductive FreshFlagRead where
  /-- the read answers 0 -/
  | zero
  /-- the read answers `Fault(Uninitialized)` -/
  | fault
deriving DecidableEq, Repr

/-- The three condition flags of the status register (spec/10_state.md R26). -/
inductive Flag where
  | zero
  | carry
  | negative
deriving DecidableEq, Repr

/-- The parameters of an instance, with the defaults of R7. `N` is not among them: CONSTRUCT chooses it (R100), so it stands
in the block it makes. -/
structure Config where
  /-- `XLEN`, the width of every integer -/
  xlen : Nat := 32
  /-- `FLAG_Z_BIT` -/
  flagZBit : Nat := 0
  /-- `FLAG_C_BIT` -/
  flagCBit : Nat := 1
  /-- `FLAG_N_BIT` -/
  flagNBit : Nat := 2
  /-- `LSHIFT_FIXED`: LSHIFT shifts left when true, right when false (R164, R165) -/
  lshiftFixed : Bool := false
  /-- `CMP_WRAP`: CMP judges the wrapped difference when true, the exact one when false (R170, R174) -/
  cmpWrap : Bool := false
  /-- `SHAMT` where it differs from its default `v mod XLEN`: pairs of a second operand and its distance. The operands are
  finitely many, so every function of them can be written so, and a configuration stays plain data (R7, R163). -/
  shamtTable : List (Int × Nat) := []
  /-- `FLAG_GET_FRESH` (R31, R106) -/
  flagGetFresh : FreshFlagRead := .zero
deriving DecidableEq, Repr

/-- The default parameters of R7, with `XLEN = 32` (R8). -/
def Config.default : Config := { }

/-- The parameter space of R7 (U13 of spec/93_implementation_defined.md): `XLEN` is a power of two and at least 8; the flag
positions are distinct and below `XLEN`. -/
def Config.valid (c : Config) : Bool :=
  decide (8 ≤ c.xlen ∧ 2 ^ c.xlen.log2 = c.xlen ∧ c.flagZBit < c.xlen ∧ c.flagCBit < c.xlen ∧ c.flagNBit < c.xlen ∧
    c.flagZBit ≠ c.flagCBit ∧ c.flagZBit ≠ c.flagNBit ∧ c.flagCBit ≠ c.flagNBit)

/-- The largest register count, `2^(XLEN-1) - 1` (R7, D22). -/
def Config.maxCount (c : Config) : Nat := 2 ^ (c.xlen - 1) - 1

/-- The bit of cell 0 that holds a flag (spec/10_state.md R26). -/
def Config.flagBit (c : Config) : Flag → Nat
  | .zero => c.flagZBit
  | .carry => c.flagCBit
  | .negative => c.flagNBit

end Sys2Proof
end

