-- ==== Sys2Proof/Syntax.lean ====
section
/-!
DEFINITION. The commands of the block as the control unit presents them: the abstract instructions, one constructor for each
row of spec/opcode_table.json, and the wires of the command port (spec/30_encoding.md R72).
-/

namespace Sys2Proof

/-- One command of the opcode table. A COMPUTE operand is a value, never a register number (R78), and either operand may be
absent (R79): `none` is the absent operand. A flag name is its 8-bit character code, `none` the missing name (R80).
CONSTRUCT is no port command and has no row (R74); COMPUTE with a code outside the table is no row either (R81): for both
see `Input` and `Decoded`. -/
inductive Instr where
  | inc (arg1 arg2 : Option Int)
  | dec (arg1 arg2 : Option Int)
  | add (arg1 arg2 : Option Int)
  | sub (arg1 arg2 : Option Int)
  | mul (arg1 arg2 : Option Int)
  | div (arg1 arg2 : Option Int)
  | and (arg1 arg2 : Option Int)
  | or (arg1 arg2 : Option Int)
  | xor (arg1 arg2 : Option Int)
  | not (arg1 arg2 : Option Int)
  | rshift (arg1 arg2 : Option Int)
  | lshift (arg1 arg2 : Option Int)
  | cmp (arg1 arg2 : Option Int)
  | regRead (addr : Int)
  | regWrite (addr wdata : Int)
  | flagSet (name : Option (BitVec 8)) (state : Bool)
  | flagGet (name : Option (BitVec 8))
deriving DecidableEq, Repr

/-- The command port (R72). The `XLEN`-bit fields are the numbers their wires write in binary; a field a format does not read
may hold anything (R74). -/
structure Port where
  cmd : BitVec 3 := 0
  opcode : Nat := 0
  arg1Present : Bool := false
  arg1 : Nat := 0
  arg2Present : Bool := false
  arg2 : Nat := 0
  addr : Nat := 0
  wdata : Nat := 0
  fnamePresent : Bool := false
  fname : BitVec 8 := 0
  fstate : Bool := false
deriving DecidableEq, Repr

/-- One thing the outside does to the block in a step. -/
inductive Input where
  /-- CONSTRUCT(n): elaborate the block with `N = n`, then reset it (R74, R100, R210) -/
  | construct (n : Int)
  /-- the reset input and the command port as they stand in one presentation (R71, R211) -/
  | present (rst : Bool) (port : Port)
deriving DecidableEq, Repr

end Sys2Proof
end

