-- ==== Sys2Proof/WellFormed.lean ====
section
/-!
DEFINITION. Which instructions the command port can carry: every integer operand is an `XLEN`-bit number (spec/30_encoding.md
R72, R78). A wrong operand count, an address outside the file and an illegal flag name are well formed: the block answers
them with faults (R84, R214).
-/

namespace Sys2Proof

/-- A present operand is in range; an absent one has no value to check (R79). -/
def operandFits (c : Config) : Option Int → Bool
  | none => true
  | some v => inRange c.xlen v

/-- The port of a block with these parameters can carry the instruction (R72, R78). -/
def Instr.wf (c : Config) : Instr → Bool
  | .inc a b => operandFits c a && operandFits c b
  | .dec a b => operandFits c a && operandFits c b
  | .add a b => operandFits c a && operandFits c b
  | .sub a b => operandFits c a && operandFits c b
  | .mul a b => operandFits c a && operandFits c b
  | .div a b => operandFits c a && operandFits c b
  | .and a b => operandFits c a && operandFits c b
  | .or a b => operandFits c a && operandFits c b
  | .xor a b => operandFits c a && operandFits c b
  | .not a b => operandFits c a && operandFits c b
  | .rshift a b => operandFits c a && operandFits c b
  | .lshift a b => operandFits c a && operandFits c b
  | .cmp a b => operandFits c a && operandFits c b
  | .regRead addr => inRange c.xlen addr
  | .regWrite addr wdata => inRange c.xlen addr && inRange c.xlen wdata
  | .flagSet _ _ => true
  | .flagGet _ => true

end Sys2Proof
end

