-- ==== Sys2Proof/Decode.lean ====
section
/-!
DEFINITION. From the wires of the command port to a command, and back (spec/30_encoding.md).

Decoding is total: every valuation of the port is IDLE, one command, a COMPUTE whose code is outside the table, or a reserved
select (R84). Whether the operand count or a flag name is legal is checked when the command is performed, not here.
-/

namespace Sys2Proof

/-- What a valuation of the command port stands for (R84). -/
inductive Decoded where
  /-- `cmd = 0`: no command is presented (R71) -/
  | idle
  /-- a command of the opcode table -/
  | instr (i : Instr)
  /-- a COMPUTE whose operation code names no entry of the table (R81) -/
  | unknownOpCode (code : Int)
  /-- `cmd = 6` or `7`, which name no command (R82) -/
  | reserved (cmd : BitVec 3)
deriving DecidableEq, Repr

/-- The value `xlen` wires carry, read signed (R12, R78); wires beyond the width do not exist and are not read. -/
def ofWires (xlen : Nat) (p : Nat) : Int := wrap xlen p

/-- The `xlen`-bit pattern of a value, as a number (R12). -/
def toWires (xlen : Nat) (v : Int) : Nat := (v % ((2 ^ xlen : Nat) : Int)).toNat

/-- An operand and its presence bit: an absent operand's wires are ignored (R79). -/
def operandOf (xlen : Nat) (present : Bool) (p : Nat) : Option Int :=
  if present then some (ofWires xlen p) else none

/-- The flag name on the port: absent, or one character code (R80). -/
def fnameOf (p : Port) : Option (BitVec 8) :=
  if p.fnamePresent then some p.fname else none

/-- The catalogue in its order; an entry's operation code is its position (R76). It is fixed and has `K = 13` entries (R77). -/
def catalogue : List (Option Int → Option Int → Instr) :=
  [.inc, .dec, .add, .sub, .mul, .div, .and, .or, .xor, .not, .rshift, .lshift, .cmp]

/-- COMPUTE's lookup: the code is judged over its whole width, and codes outside `0..12` name no entry (R81, R121). -/
def decodeCompute (code : Int) (arg1 arg2 : Option Int) : Decoded :=
  if code < 0 then .unknownOpCode code
  else match catalogue[code.toNat]? with
    | some entry => .instr (entry arg1 arg2)
    | none => .unknownOpCode code

/-- The command a valuation of the port stands for (R72, R74, R84). -/
def decode (c : Config) (p : Port) : Decoded :=
  match p.cmd.toNat with
  | 0 => .idle
  | 1 => decodeCompute (ofWires c.xlen p.opcode) (operandOf c.xlen p.arg1Present p.arg1)
      (operandOf c.xlen p.arg2Present p.arg2)
  | 2 => .instr (.regRead (ofWires c.xlen p.addr))
  | 3 => .instr (.regWrite (ofWires c.xlen p.addr) (ofWires c.xlen p.wdata))
  | 4 => .instr (.flagSet (fnameOf p) p.fstate)
  | 5 => .instr (.flagGet (fnameOf p))
  | _ => .reserved p.cmd

/-- The selector word `SEL = {cmd, opcode}` of R75. -/
def sel (c : Config) (p : Port) : Nat := p.cmd.toNat * 2 ^ c.xlen + p.opcode % 2 ^ c.xlen

/-- The port that presents the selector word `w` of `nbits` bits and zeros on every other wire (R75). -/
def Port.ofSel (xlen nbits w : Nat) : Port :=
  { cmd := BitVec.ofNat 3 (w % 2 ^ nbits / 2 ^ xlen), opcode := w % 2 ^ nbits % 2 ^ xlen }

/-- The instruction read from a selector word at the default parameters, for which the opcode table is printed (R8, R75). -/
def decodeTableWord (nbits w : Nat) : Option Instr :=
  match decode Config.default (Port.ofSel Config.default.xlen nbits w) with
  | .instr i => some i
  | _ => none

/-- The port of a COMPUTE: format C of R74. The wires of an absent operand are driven to 0, which nothing reads (R79). -/
def encodeCompute (c : Config) (code : Nat) (arg1 arg2 : Option Int) : Port :=
  { cmd := 1, opcode := code
    arg1Present := arg1.isSome, arg1 := (arg1.map (toWires c.xlen)).getD 0
    arg2Present := arg2.isSome, arg2 := (arg2.map (toWires c.xlen)).getD 0 }

/-- The wires that present an instruction (R74, R76, R80); the fields its format does not read are 0. -/
def encode (c : Config) : Instr → Port
  | .inc a b => encodeCompute c 0 a b
  | .dec a b => encodeCompute c 1 a b
  | .add a b => encodeCompute c 2 a b
  | .sub a b => encodeCompute c 3 a b
  | .mul a b => encodeCompute c 4 a b
  | .div a b => encodeCompute c 5 a b
  | .and a b => encodeCompute c 6 a b
  | .or a b => encodeCompute c 7 a b
  | .xor a b => encodeCompute c 8 a b
  | .not a b => encodeCompute c 9 a b
  | .rshift a b => encodeCompute c 10 a b
  | .lshift a b => encodeCompute c 11 a b
  | .cmp a b => encodeCompute c 12 a b
  | .regRead addr => { cmd := 2, addr := toWires c.xlen addr }
  | .regWrite addr wdata => { cmd := 3, addr := toWires c.xlen addr, wdata := toWires c.xlen wdata }
  | .flagSet name state => { cmd := 4, fnamePresent := name.isSome, fname := name.getD 0, fstate := state }
  | .flagGet name => { cmd := 5, fnamePresent := name.isSome, fname := name.getD 0 }

/-- The table's name for an instruction (R76, spec/opcode_table.json). -/
def Instr.mnemonic : Instr → String
  | .inc _ _ => "INC"
  | .dec _ _ => "DEC"
  | .add _ _ => "ADD"
  | .sub _ _ => "SUB"
  | .mul _ _ => "MUL"
  | .div _ _ => "DIV"
  | .and _ _ => "AND"
  | .or _ _ => "OR"
  | .xor _ _ => "XOR"
  | .not _ _ => "NOT"
  | .rshift _ _ => "RSHIFT"
  | .lshift _ _ => "LSHIFT"
  | .cmp _ _ => "CMP"
  | .regRead _ => "REG_READ"
  | .regWrite _ _ => "REG_WRITE"
  | .flagSet _ _ => "FLAG_SET"
  | .flagGet _ => "FLAG_GET"

/-- A row of the opcode table: a selector word selects it when `word &&& mask = bits` (R75). -/
structure TableRow where
  mnemonic : String
  bits : Nat
  mask : Nat
deriving DecidableEq, Repr

/-- The opcode table (spec/opcode_table.json), printed for `XLEN = 32` (R75). -/
def opcodeTable : List TableRow :=
  [⟨"INC", 0x100000000, 0x7FFFFFFFF⟩,
   ⟨"DEC", 0x100000001, 0x7FFFFFFFF⟩,
   ⟨"ADD", 0x100000002, 0x7FFFFFFFF⟩,
   ⟨"SUB", 0x100000003, 0x7FFFFFFFF⟩,
   ⟨"MUL", 0x100000004, 0x7FFFFFFFF⟩,
   ⟨"DIV", 0x100000005, 0x7FFFFFFFF⟩] ++
  [⟨"AND", 0x100000006, 0x7FFFFFFFF⟩,
   ⟨"OR", 0x100000007, 0x7FFFFFFFF⟩,
   ⟨"XOR", 0x100000008, 0x7FFFFFFFF⟩,
   ⟨"NOT", 0x100000009, 0x7FFFFFFFF⟩,
   ⟨"RSHIFT", 0x10000000A, 0x7FFFFFFFF⟩,
   ⟨"LSHIFT", 0x10000000B, 0x7FFFFFFFF⟩,
   ⟨"CMP", 0x10000000C, 0x7FFFFFFFF⟩] ++
  [⟨"REG_READ", 0x200000000, 0x700000000⟩,
   ⟨"REG_WRITE", 0x300000000, 0x700000000⟩,
   ⟨"FLAG_SET", 0x400000000, 0x700000000⟩,
   ⟨"FLAG_GET", 0x500000000, 0x700000000⟩]

/-- How a host adapter that holds a string presents a flag name (R80): the presence bit and the character code. A character
whose code does not fit in 8 bits is no legal name and is presented as the illegal code 0, as a longer string is. -/
def adapterName : Option (List Char) → Bool × BitVec 8
  | none => (false, 0)
  | some [ch] => (true, if ch.toNat < 256 then BitVec.ofNat 8 ch.toNat else 0)
  | some _ => (true, 0)

/-- One line of the written form of commands (R85). -/
inductive Line where
  /-- `RESET n` -/
  | reset (n : Int)
  /-- `INC a` to `CMP a, b`, `RD addr` and `WR addr, v` -/
  | command (i : Instr)
  /-- `COMPUTE code, a, b` in full generality, `_` written as an absent operand -/
  | compute (code : Int) (arg1 arg2 : Option Int)
  /-- `SETF name, s`, the name as the string a host holds, `null` written as an absent one -/
  | setf (name : Option (List Char)) (state : Bool)
  /-- `GETF name` -/
  | getf (name : Option (List Char))
deriving DecidableEq, Repr

/-- What a control unit presents for a written line (R80, R85). -/
def Line.input (c : Config) : Line → Input
  | .reset n => .construct n
  | .command i => .present false (encode c i)
  | .compute code arg1 arg2 => .present false { encodeCompute c 0 arg1 arg2 with opcode := toWires c.xlen code }
  | .setf name state =>
    .present false { cmd := 4, fnamePresent := (adapterName name).1, fname := (adapterName name).2, fstate := state }
  | .getf name => .present false { cmd := 5, fnamePresent := (adapterName name).1, fname := (adapterName name).2 }

end Sys2Proof
end

