-- ==== Sys2Proof/Machine/State.lean ====
section
/-!
DEFINITION. The state of the block and of its two ports (spec/10_state.md), as plain data.
-/

namespace Sys2Proof.Machine

open Sys2Proof

/-- Why the machine stops with a fault: for no reason. The eight error kinds of spec/60_exceptions.md R180 stop nothing: each is
an answer of the response port, after which the block accepts the next command (R189, R190); they are `FaultKind`. So the type
has no constructor, which is exact and safe: no step of the model ends here. -/
inductive Fault where
deriving DecidableEq, Repr

/-- Why the model has no meaning for a step. -/
inductive Refusal where
  /-- an arm of `exec` whose instruction has no meaning yet; safe; no arm raises it -/
  | notModelled (mnemonic : String)
  /-- a command or the reset input where no block exists: before a successful CONSTRUCT or after one that faulted (R100, U18 of
  spec/93_implementation_defined.md); raised by every command through `withBlock`, and by the reset input; safe -/
  | noBlock
  /-- `cmd = 6` or `7`, which name no command (R82, U8), presented without the reset input (log entry 17); raised by `perform`;
  safe -/
  | reservedSelect (cmd : BitVec 3)
  /-- CONSTRUCT with a count above `2^(XLEN-1) - 1` (R100, D22); raised by `construct`; safe -/
  | countNotRepresentable (n : Int)
  /-- CONSTRUCT with parameters outside the space of R7 (U13); raised by `construct`; safe -/
  | parametersOutsideSpace
deriving DecidableEq, Repr

/-- The eight error kinds, in the order of their codes 1 to 8 (spec/60_exceptions.md R180). -/
inductive FaultKind where
  | invalidConstruction
  | outOfBounds
  | uninitialized
  | unknownOpCode
  | arityMismatch
  | divisionByZero
  | invalidFlagName
  | nullArgument
deriving DecidableEq, Repr

/-- The answer to a command (spec/00_scope.md R11). `result` is `none` where the command yields no value; `diag` is the
non-fatal diagnostic. -/
inductive Answer where
  | ok (result : Option Int) (diag : Bool)
  | fault (kind : FaultKind)
deriving DecidableEq, Repr

/-- The response port as wires (spec/30_encoding.md R73). `result` is the pattern on the result wires, and `none` where they hold
no meaning (`resultValid = false`, D25). -/
structure ResponsePort where
  status : BitVec 4
  resultValid : Bool
  result : Option Nat
  diag : Bool
deriving DecidableEq, Repr

/-- The general-purpose cells, the addressable storage beside cell 0 (spec/20_memory.md R50, R51): the address and the value of
every WRITTEN cell, addresses strictly rising. An address that is not listed is a cell whose written bit is 0; such a cell holds
no value (spec/10_state.md R23, R33). -/
abbrev Memory := List (Nat × Int)

/-- A constructed block: its register count and its register file (spec/10_state.md R20). -/
structure Block where
  /-- `N`, fixed at construction; the file has the cells 0 to N (R22) -/
  n : Nat
  /-- `valid[0]`, the status register's written bit (R31) -/
  srWritten : Bool
  /-- `x[0]`, the status register's value field, which is 0 while the cell has never been written (R26, R31) -/
  sr : Int
  /-- `valid[i]` and `x[i]` for i = 1 to N (R22, R23) -/
  regs : Memory
deriving DecidableEq, Repr

/-- The register file right after construction or reset: every cell never written, the value field of cell 0 zero
(spec/10_state.md R33, spec/70_reset_and_hazards.md R211). -/
def Block.fresh (n : Nat) : Block := { n := n, srWritten := false, sr := 0, regs := [] }

/-- The machine: its parameters, the block if one has been constructed, and its two ports. -/
structure State where
  /-- the parameters of the instance, which no step changes (R7, R8) -/
  cfg : Config
  /-- the block; `none` before a successful CONSTRUCT and after one that faulted (R100) -/
  block : Option Block
  /-- what the control unit will present, in order; empty means it presents nothing (spec/70_reset_and_hazards.md R221) -/
  inputs : List Input
  /-- the answer given in the last step; `none` when that step answered nothing (R11, R71) -/
  answer : Option Answer
deriving DecidableEq, Repr

/-- The register count of the block that `State.reset` holds; DESIGN CHOICE, log entry 1: the spec leaves `N` an argument. -/
def resetCount : Nat := 3

/-- The machine right after reset: the default parameters, a block just constructed, nothing presented and nothing answered
(spec/10_state.md R33, spec/70_reset_and_hazards.md R210 to R212). -/
def State.reset : State :=
  { cfg := Config.default, block := some (Block.fresh resetCount), inputs := [], answer := none }

end Sys2Proof.Machine
end

