-- ==== Sys2Proof/Machine/Operands.lean ====
section
/-!
DEFINITION. The operands of a command: presence, counting, the wires an operand arrives on, the shift distance and the address
decoder (spec/30_encoding.md R78, R79; spec/41_alu_dispatch.md R122; spec/44_alu_logic_shift.md R163; spec/10_state.md R39).
-/

namespace Sys2Proof.Machine

open Sys2Proof

/-- How many operands are present (R79). -/
def operandCount (arg1 arg2 : Option Int) : Nat := arg1.isSome.toNat + arg2.isSome.toNat

/-- The value the block sees of an operand: what `XLEN` wires can carry of it (R78). On an `XLEN`-bit number it changes
nothing. -/
def wire (c : Config) (v : Int) : Int := wrap c.xlen v

/-- `SHAMT`: the shift distance taken from the second operand, `v mod XLEN` where the table of the configuration says nothing
else (R163, D5). -/
def shamt (c : Config) (v : Int) : Nat :=
  match c.shamtTable.find? (fun e => e.1 == v) with
  | some e => e.2
  | none => (v % (c.xlen : Int)).toNat

/-- The address decoder: the cell an address selects, none outside `0..N` (R39). -/
def selectCell (b : Block) (addr : Int) : Option Nat :=
  if 0 ≤ addr ∧ addr ≤ (b.n : Int) then some addr.toNat else none

end Sys2Proof.Machine
end

