-- ==== Sys2Proof/Machine/Flags.lean ====
section
/-!
DEFINITION. The flags of the status register: reading and writing a bit of cell 0, the check of a flag name and CMP's flag update
(spec/10_state.md R26 to R30; spec/40_regfile_commands.md R104; spec/45_alu_compare.md R170).
-/

namespace Sys2Proof.Machine

open Sys2Proof

/-- `v[i]`: one bit of a value (R12). -/
def getBit (xlen : Nat) (v : Int) (i : Nat) : Bool := (toBits xlen v).getLsbD i

/-- `v[i] <- b`: the value with one bit replaced (R13). -/
def putBit (xlen : Nat) (v : Int) (i : Nat) (b : Bool) : Int :=
  ofBits (if b then toBits xlen v ||| BitVec.twoPow xlen i else toBits xlen v &&& ~~~ BitVec.twoPow xlen i)

/-- A flag of a status value (R26). -/
def getFlag (c : Config) (v : Int) (f : Flag) : Bool := getBit c.xlen v (c.flagBit f)

/-- A status value with one flag written and every other bit kept (R28). -/
def putFlag (c : Config) (v : Int) (f : Flag) (b : Bool) : Int := putBit c.xlen v (c.flagBit f) b

/-- The legal flag names on the port: the characters `Z`, `C`, `N` (R80). -/
def flagOfCode (code : BitVec 8) : Option Flag :=
  if code = 0x5A#8 then some .zero
  else if code = 0x43#8 then some .carry
  else if code = 0x4E#8 then some .negative
  else none

/-- The flag-name check: the absent name first, then an illegal one (R104). -/
def checkName : Option (BitVec 8) → Except FaultKind Flag
  | none => .error .nullArgument
  | some code =>
    match flagOfCode code with
    | some f => .ok f
    | none => .error .invalidFlagName

/-- The difference CMP judges: exact, or wrapped under `CMP_WRAP` (R170, R174). -/
def cmpDiff (c : Config) (a b : Int) : Int := if c.cmpWrap then wrap c.xlen (a - b) else a - b

/-- The one flag a difference sets (R170). -/
def cmpFlag (diff : Int) : Flag := if diff < 0 then .negative else if diff > 0 then .carry else .zero

/-- CMP's write of the status value: the three flags cleared, then one set, every other bit kept (R170). -/
def cmpStatus (c : Config) (v : Int) (a b : Int) : Int :=
  putFlag c (putFlag c (putFlag c (putFlag c v .zero false) .carry false) .negative false) (cmpFlag (cmpDiff c a b)) true

end Sys2Proof.Machine
end

