-- ==== Sys2Proof/Machine/Ops.lean ====
section
/-!
DEFINITION. The shared operations: reading and writing cells, answering, raising a fault, COMPUTE's operand check, construction,
the reset input, and the response port.
-/

namespace Sys2Proof.Machine

open Sys2Proof

/-- The value of a general cell; `none` when it has never been written (spec/10_state.md R23). -/
def Memory.read : Memory → Nat → Option Int
  | [], _ => none
  | (a', v) :: m, a => if a' = a then some v else Memory.read m a

/-- The general cells with one written, addresses still rising (R24). -/
def Memory.write : Memory → Nat → Int → Memory
  | [], a, v => [(a, v)]
  | (a', v') :: m, a, v =>
    if a < a' then (a, v) :: (a', v') :: m
    else if a = a' then (a, v) :: m
    else (a', v') :: Memory.write m a v

/-- The canonical form of the general cells of a file with `n` of them: addresses strictly rising, each among 1 to `n`, every
value an `XLEN`-bit number (R22). -/
def Memory.wf (xlen n : Nat) (m : Memory) : Bool :=
  decide ((m.map Prod.fst).Pairwise (· < ·)) && m.all (fun e => decide (1 ≤ e.1 ∧ e.1 ≤ n) && inRange xlen e.2)

/-- A cell as a REG_READ sees it: its value, or `none` while its written bit is 0. Cell 0 is the status register (R25). -/
def Block.readCell (b : Block) (a : Nat) : Option Int :=
  if a = 0 then (if b.srWritten then some b.sr else none) else b.regs.read a

/-- `x[a] <- v`: the value field takes `v` and the written bit becomes 1 (spec/00_scope.md R13). -/
def Block.writeCell (b : Block) (a : Nat) (v : Int) : Block :=
  if a = 0 then { b with sr := v, srWritten := true } else { b with regs := b.regs.write a v }

/-- The register file is as the spec says it can be: a representable count, `XLEN`-bit values, cells in canonical form, and a
status register that reads as 0 while it has never been written (R22, R31, R33). -/
def Block.wf (c : Config) (b : Block) : Bool :=
  decide (b.n ≤ c.maxCount) && inRange c.xlen b.sr && (b.srWritten || decide (b.sr = 0)) && b.regs.wf c.xlen b.n

/-- The state is one the block can be in: parameters in their space, the register file well formed. -/
def State.wf (s : State) : Bool :=
  s.cfg.valid && (match s.block with
    | none => true
    | some b => b.wf s.cfg)

/-- The command was performed: it answers `Ok(result, diag)` (R11). -/
def answerOk (result : Option Int) (diag : Bool) (s : State) : Host.Outcome State Fault Refusal :=
  .next { s with answer := some (.ok result diag) }

/-- TAKING A FAULT (spec/60_exceptions.md R189, R190): the command answers `Fault(kind)`, nothing else changes, nothing is saved and
control goes nowhere; the block accepts the next command. There is no return from it. -/
def raise (kind : FaultKind) (s : State) : Host.Outcome State Fault Refusal :=
  .next { s with answer := some (.fault kind) }

/-- A command needs a block to be a command to (R100, U18). -/
def withBlock (s : State) (f : Block → Host.Outcome State Fault Refusal) : Host.Outcome State Fault Refusal :=
  match s.block with
  | none => .refused .noBlock
  | some b => f b

/-- The state with its register file replaced. -/
def State.setBlock (s : State) (b : Block) : State := { s with block := some b }

/-- COMPUTE of an arity-1 entry: the count first, then the misplaced single operand, then the operation on `arg1` alone; the
sentinel for the absent `arg2` is no value (spec/41_alu_dispatch.md R120 to R126). -/
def computeUnary (op : Config → Int → Int) (arg1 arg2 : Option Int) (s : State) : Host.Outcome State Fault Refusal :=
  withBlock s fun _ =>
    if operandCount arg1 arg2 ≠ 1 then raise .arityMismatch s
    else match arg1 with
      | none => raise .nullArgument s
      | some a => answerOk (some (op s.cfg (wire s.cfg a))) false s

/-- The operand check of an arity-2 entry: the count, then both operands (R120 to R124). With both present none is missing, so the
last arm is never taken. -/
def computeWith (op : Block → Int → Int → Host.Outcome State Fault Refusal) (arg1 arg2 : Option Int) (s : State) :
    Host.Outcome State Fault Refusal :=
  withBlock s fun b =>
    if operandCount arg1 arg2 ≠ 2 then raise .arityMismatch s
    else match arg1, arg2 with
      | some x, some y => op b (wire s.cfg x) (wire s.cfg y)
      | _, _ => raise .nullArgument s

/-- COMPUTE of a value-returning arity-2 entry: a pure function of its operands, answered to the control unit and written to no
register (R124, R125). -/
def computeBinary (op : Config → Int → Int → Int) (arg1 arg2 : Option Int) (s : State) :
    Host.Outcome State Fault Refusal :=
  computeWith (fun _ x y => answerOk (some (op s.cfg x y)) false s) arg1 arg2 s

/-- COMPUTE with a code outside the table, whatever its operands (R121). -/
def computeUnknown (s : State) : Host.Outcome State Fault Refusal :=
  withBlock s fun _ => raise .unknownOpCode s

/-- CONSTRUCT(n) (spec/40_regfile_commands.md R100): a fresh block with `N = n`; a negative count faults and leaves no block; a count
or parameters outside their space give no instance and are refused (D22, U13). The answer to a performed construction has no
value. -/
def construct (n : Int) (s : State) : Host.Outcome State Fault Refusal :=
  if s.cfg.valid = false then .refused .parametersOutsideSpace
  else if n < 0 then raise .invalidConstruction { s with block := none }
  else if n > (s.cfg.maxCount : Int) then .refused (.countNotRepresentable n)
  else answerOk none false (s.setBlock (Block.fresh n.toNat))

/-- The reset input (spec/70_reset_and_hazards.md R211): the constructed state again, with the same `N`; it is no command and gets no
answer. -/
def assertReset (s : State) : Host.Outcome State Fault Refusal :=
  withBlock s fun b => .next (s.setBlock (Block.fresh b.n))

/-- The code of a fault kind: its position from 1 in the list of R180. -/
def FaultKind.code : FaultKind → Nat
  | .invalidConstruction => 1
  | .outOfBounds => 2
  | .uninitialized => 3
  | .unknownOpCode => 4
  | .arityMismatch => 5
  | .divisionByZero => 6
  | .invalidFlagName => 7
  | .nullArgument => 8

/-- An answer on the wires of the response port (spec/30_encoding.md R73). -/
def Answer.toPort (c : Config) : Answer → ResponsePort
  | .ok r d => { status := 0, resultValid := r.isSome, result := r.map (toWires c.xlen), diag := d }
  | .fault k => { status := BitVec.ofNat 4 k.code, resultValid := false, result := none, diag := false }

end Sys2Proof.Machine
end

