-- ==== Sys2Proof/Machine/Arith.lean ====
section
/-!
DEFINITION. The binary arithmetic ADD, SUB, MUL and DIV (spec/43_alu_arith.md).
-/

namespace Sys2Proof.Machine

open Sys2Proof

/-- R150. -/
def addValue (c : Config) (a b : Int) : Int := wrap c.xlen (a + b)

/-- R151. -/
def subValue (c : Config) (a b : Int) : Int := wrap c.xlen (a - b)

/-- R152: the low `XLEN` bits of the exact product. -/
def mulValue (c : Config) (a b : Int) : Int := wrap c.xlen (a * b)

/-- R153, for a divisor other than 0: the quotient rounded toward zero, wrapped. -/
def divValue (c : Config) (a b : Int) : Int := wrap c.xlen (Int.tdiv a b)

/-- ADD (R150). -/
def execAdd (arg1 arg2 : Option Int) (s : State) : Host.Outcome State Fault Refusal := computeBinary addValue arg1 arg2 s

/-- SUB (R151). -/
def execSub (arg1 arg2 : Option Int) (s : State) : Host.Outcome State Fault Refusal := computeBinary subValue arg1 arg2 s

/-- MUL (R152). -/
def execMul (arg1 arg2 : Option Int) (s : State) : Host.Outcome State Fault Refusal := computeBinary mulValue arg1 arg2 s

/-- DIV (R153): a zero divisor raises `DivisionByZero`, after the operand count has been checked. -/
def execDiv (arg1 arg2 : Option Int) (s : State) : Host.Outcome State Fault Refusal :=
  computeWith
    (fun _ x y => if y = 0 then raise .divisionByZero s else answerOk (some (divValue s.cfg x y)) false s) arg1 arg2 s

end Sys2Proof.Machine
end

