-- ==== Sys2Proof/Machine/Compare.lean ====
section
/-!
DEFINITION. The compare operation CMP (spec/45_alu_compare.md).
-/

namespace Sys2Proof.Machine

open Sys2Proof

/-- CMP (R170): the three flags take the sign of the difference in one write of cell 0, which marks the cell written; no value is
returned. -/
def execCmp (arg1 arg2 : Option Int) (s : State) : Host.Outcome State Fault Refusal :=
  computeWith (fun b x y => answerOk none false (s.setBlock (b.writeCell 0 (cmpStatus s.cfg b.sr x y)))) arg1 arg2 s

end Sys2Proof.Machine
end

