-- ==== Sys2Proof/Machine/Logic.lean ====
section
/-!
DEFINITION. The bitwise operations AND, OR, XOR and the shifts RSHIFT, LSHIFT (spec/44_alu_logic_shift.md).
-/

namespace Sys2Proof.Machine

open Sys2Proof

/-- R160. -/
def andValue (c : Config) (a b : Int) : Int := ofBits (toBits c.xlen a &&& toBits c.xlen b)

/-- R161. -/
def orValue (c : Config) (a b : Int) : Int := ofBits (toBits c.xlen a ||| toBits c.xlen b)

/-- R162. -/
def xorValue (c : Config) (a b : Int) : Int := ofBits (toBits c.xlen a ^^^ toBits c.xlen b)

/-- R163: `floor(a / 2^sh)`; the divisor is positive, so `/` on integers rounds toward minus infinity. -/
def rshiftValue (c : Config) (a b : Int) : Int := a / ((2 ^ shamt c b : Nat) : Int)

/-- R164, R165: the right shift the source records, or the left shift under `LSHIFT_FIXED`. -/
def lshiftValue (c : Config) (a b : Int) : Int :=
  if c.lshiftFixed then wrap c.xlen (a * ((2 ^ shamt c b : Nat) : Int)) else a / ((2 ^ shamt c b : Nat) : Int)

/-- AND (R160). -/
def execAnd (arg1 arg2 : Option Int) (s : State) : Host.Outcome State Fault Refusal := computeBinary andValue arg1 arg2 s

/-- OR (R161). -/
def execOr (arg1 arg2 : Option Int) (s : State) : Host.Outcome State Fault Refusal := computeBinary orValue arg1 arg2 s

/-- XOR (R162). -/
def execXor (arg1 arg2 : Option Int) (s : State) : Host.Outcome State Fault Refusal := computeBinary xorValue arg1 arg2 s

/-- RSHIFT (R163). -/
def execRshift (arg1 arg2 : Option Int) (s : State) : Host.Outcome State Fault Refusal := computeBinary rshiftValue arg1 arg2 s

/-- LSHIFT (R164, R165). -/
def execLshift (arg1 arg2 : Option Int) (s : State) : Host.Outcome State Fault Refusal := computeBinary lshiftValue arg1 arg2 s

end Sys2Proof.Machine
end

