-- ==== Sys2Proof/Machine/RegFile.lean ====
section
/-!
DEFINITION. The register-file commands REG_READ, REG_WRITE, FLAG_SET and FLAG_GET (spec/40_regfile_commands.md).
-/

namespace Sys2Proof.Machine

open Sys2Proof

/-- REG_READ (R101): `OutOfBounds`, then `Uninitialized`, then the whole cell. -/
def execRegRead (addr : Int) (s : State) : Host.Outcome State Fault Refusal :=
  withBlock s fun b =>
    match selectCell b (wire s.cfg addr) with
    | none => raise .outOfBounds s
    | some a =>
      match b.readCell a with
      | none => raise .uninitialized s
      | some v => answerOk (some v) false s

/-- REG_WRITE (R102): the whole cell; a write of address 0 answers with the diagnostic (R103). -/
def execRegWrite (addr wdata : Int) (s : State) : Host.Outcome State Fault Refusal :=
  withBlock s fun b =>
    match selectCell b (wire s.cfg addr) with
    | none => raise .outOfBounds s
    | some a => answerOk none (decide (a = 0)) (s.setBlock (b.writeCell a (wire s.cfg wdata)))

/-- FLAG_SET (R105): one bit of cell 0, which becomes written; the value field reads as 0 before that. -/
def execFlagSet (name : Option (BitVec 8)) (state : Bool) (s : State) : Host.Outcome State Fault Refusal :=
  withBlock s fun b =>
    match checkName name with
    | .error k => raise k s
    | .ok f => answerOk none false (s.setBlock (b.writeCell 0 (putFlag s.cfg b.sr f state)))

/-- FLAG_GET (R106): one bit of cell 0 as the integer 0 or 1; on a status register never written, what `FLAG_GET_FRESH` says. -/
def execFlagGet (name : Option (BitVec 8)) (s : State) : Host.Outcome State Fault Refusal :=
  withBlock s fun b =>
    match checkName name with
    | .error k => raise k s
    | .ok f =>
      if b.srWritten = false ∧ s.cfg.flagGetFresh = .fault then raise .uninitialized s
      else answerOk (some (if getFlag s.cfg b.sr f then 1 else 0)) false s

end Sys2Proof.Machine
end

