-- ==== Sys2Proof/Machine/Unary.lean ====
section
/-!
DEFINITION. The unary operations INC, DEC and NOT (spec/42_alu_unary.md).
-/

namespace Sys2Proof.Machine

open Sys2Proof

/-- R140. -/
def incValue (c : Config) (a : Int) : Int := wrap c.xlen (a + 1)

/-- R141. -/
def decValue (c : Config) (a : Int) : Int := wrap c.xlen (a - 1)

/-- R142: every bit complemented. -/
def notValue (c : Config) (a : Int) : Int := ofBits (~~~ toBits c.xlen a)

/-- INC (R140). -/
def execInc (arg1 arg2 : Option Int) (s : State) : Host.Outcome State Fault Refusal := computeUnary incValue arg1 arg2 s

/-- DEC (R141). -/
def execDec (arg1 arg2 : Option Int) (s : State) : Host.Outcome State Fault Refusal := computeUnary decValue arg1 arg2 s

/-- NOT (R142). -/
def execNot (arg1 arg2 : Option Int) (s : State) : Host.Outcome State Fault Refusal := computeUnary notValue arg1 arg2 s

end Sys2Proof.Machine
end

