-- ==== Sys2Proof/Machine/Dispatch.lean ====
section
/-!
DEFINITION. The meaning of every instruction, one arm for each row of spec/opcode_table.json.
-/

namespace Sys2Proof.Machine
open Sys2Proof

/-- The effect of one command on the block (spec/00_scope.md R9 to R11). -/
def exec (i : Instr) (s : State) : Host.Outcome State Fault Refusal :=
  match i with
  | .inc arg1 arg2 => Sys2Proof.Machine.execInc arg1 arg2 s
  | .dec arg1 arg2 => Sys2Proof.Machine.execDec arg1 arg2 s
  | .add arg1 arg2 => Sys2Proof.Machine.execAdd arg1 arg2 s
  | .sub arg1 arg2 => Sys2Proof.Machine.execSub arg1 arg2 s
  | .mul arg1 arg2 => Sys2Proof.Machine.execMul arg1 arg2 s
  | .div arg1 arg2 => Sys2Proof.Machine.execDiv arg1 arg2 s
  | .and arg1 arg2 => Sys2Proof.Machine.execAnd arg1 arg2 s
  | .or arg1 arg2 => Sys2Proof.Machine.execOr arg1 arg2 s
  | .xor arg1 arg2 => Sys2Proof.Machine.execXor arg1 arg2 s
  | .not arg1 arg2 => Sys2Proof.Machine.execNot arg1 arg2 s
  | .rshift arg1 arg2 => Sys2Proof.Machine.execRshift arg1 arg2 s
  | .lshift arg1 arg2 => Sys2Proof.Machine.execLshift arg1 arg2 s
  | .cmp arg1 arg2 => Sys2Proof.Machine.execCmp arg1 arg2 s
  | .regRead addr => Sys2Proof.Machine.execRegRead addr s
  | .regWrite addr wdata => Sys2Proof.Machine.execRegWrite addr wdata s
  | .flagSet name state => Sys2Proof.Machine.execFlagSet name state s
  | .flagGet name => Sys2Proof.Machine.execFlagGet name s

end Sys2Proof.Machine
end

