-- ==== Sys2Proof/Machine/Perform.lean ====
section
/-!
DEFINITION. What a presentation of the command port does, once decoded (spec/30_encoding.md R71, R81, R82, R84).
-/

namespace Sys2Proof.Machine

open Sys2Proof

/-- IDLE changes no state and gets no answer (R71); a command is performed; a COMPUTE outside the table faults (R81); a reserved
select is refused and is not IDLE (R82). -/
def perform (d : Decoded) (s : State) : Host.Outcome State Fault Refusal :=
  match d with
  | .idle => .next s
  | .instr i => exec i s
  | .unknownOpCode _ => computeUnknown s
  | .reserved cmd => .refused (.reservedSelect cmd)

/-- One input (R71, R74, R211): a construction; the reset input, which abandons the command presented beside it; or a command.
DESIGN CHOICE, unsafe, log entry 17: the reset input acts also beside a reserved select, which R211 would reset and R82 would refuse. -/
def accept (inp : Input) (s : State) : Host.Outcome State Fault Refusal :=
  match inp with
  | .construct n => construct n s
  | .present rst p => if rst then assertReset s else perform (decode s.cfg p) s

/-- The state as an input finds it: the input is taken off the list, and nothing is answered yet. -/
def State.take (s : State) (rest : List Input) : State := { s with inputs := rest, answer := none }

end Sys2Proof.Machine
end

