-- ==== Sys2Proof/Machine/Step.lean ====
section
/-!
DEFINITION. One step of the machine: one command, performed completely or answered with a fault (spec/00_scope.md R9).
-/

namespace Sys2Proof.Machine

open Sys2Proof

/-- The block takes the next thing the control unit presents and answers it before the one after it (spec/30_encoding.md R71,
spec/20_memory.md R59). When nothing is presented it waits (spec/70_reset_and_hazards.md R212). -/
def step (s : State) : Host.Outcome State Fault Refusal :=
  match s.inputs with
  | [] => .next (s.take [])
  | inp :: rest => accept inp (s.take rest)

/-- The state in which the control unit next presents the selector word `w`, zeros on every other wire (R75), before everything
it was about to present. -/
def State.withFetchWord (s : State) (nbits w : Nat) : State :=
  { s with inputs := .present false (Port.ofSel s.cfg.xlen nbits w) :: s.inputs }

end Sys2Proof.Machine
end

