-- ==== Sys2Proof/Safety.lean ====
section
/-!
DEFINITION. The words claims use: a conforming control unit and a safe run (spec/70_reset_and_hazards.md R213, R214), a sequence of
commands, which commands write a cell, and the contract of an operation of the opcode table.
-/

namespace Sys2Proof

open Sys2Proof.Machine

/-- An input of a control unit that keeps its duties: it never drives a reserved select (spec/30_encoding.md R82) and constructs with
a count of the parameter space (R213, D22). A malformed command is conforming: it is answered with a fault (R214).
DESIGN CHOICE, unsafe, log entry 17: a reserved select beside an asserted reset input is counted as no breach, since the reset abandons
what is presented beside it; R82 and R211 leave the two together open. -/
def conforming (c : Config) : Input → Bool
  | .construct n => decide (0 ≤ n ∧ n ≤ (c.maxCount : Int))
  | .present rst p => rst || decide (p.cmd.toNat < 6)

/-- Every step of the next `k` gives a next state: none is refused and none is a fault of the machine. -/
def SafeFor : Nat → State → Prop
  | 0, _ => True
  | k + 1, s => ∃ s', step s = .next s' ∧ SafeFor k s'

/-- A sequence of commands, one after another (spec/20_memory.md R59). -/
def execAll : List Instr → State → Host.Outcome State Fault Refusal
  | [], s => .next s
  | i :: is, s =>
    match exec i s with
    | .next s' => execAll is s'
    | .fault r => .fault r
    | .refused r => .refused r

/-- The command can write the cell (spec/10_state.md R24): REG_WRITE its own cell, FLAG_SET and CMP cell 0. -/
def writesCell (c : Config) (a : Nat) : Instr → Bool
  | .regWrite addr _ => decide (wire c addr = (a : Int))
  | .flagSet _ _ => decide (a = 0)
  | .cmp _ _ => decide (a = 0)
  | _ => false

/-- The command changes no state whatever its operands (R24, spec/20_memory.md R56): every COMPUTE but CMP, REG_READ and FLAG_GET. -/
def writesNothing : Instr → Bool
  | .regWrite _ _ => false
  | .flagSet _ _ => false
  | .cmp _ _ => false
  | _ => true

/-- The twelve operations of the catalogue that return a value (spec/41_alu_dispatch.md R125). -/
def returnsValue : Instr → Bool
  | .regRead _ => false
  | .regWrite _ _ => false
  | .flagSet _ _ => false
  | .flagGet _ => false
  | .cmp _ _ => false
  | _ => true

/-- The state after a command that answers `ans` and changes nothing else. -/
def answering (s : State) (ans : Answer) : State := { s with answer := some ans }

/-- An arity-1 operation with the given code (spec/41_alu_dispatch.md R120 to R125), in every state that holds a block: with `arg1`
alone it answers the value `result` gives and changes nothing else, so no flag and no cell; on a wrong count it answers
`ArityMismatch`; with `arg2` alone it answers `NullArgument`; and its wires are those of format C. -/
def UnaryContract (op : Option Int → Option Int → Instr) (code : Nat) (result : Config → Int → Int) : Prop :=
  ∀ s b, s.cfg.valid = true → s.block = some b →
    (∀ x, inRange s.cfg.xlen x = true →
      inRange s.cfg.xlen (result s.cfg x) = true ∧
      exec (op (some x) none) s = .next (answering s (.ok (some (result s.cfg x)) false))) ∧
    (∀ x y, exec (op (some x) (some y)) s = .next (answering s (.fault .arityMismatch))) ∧
    exec (op none none) s = .next (answering s (.fault .arityMismatch)) ∧
    (∀ y, exec (op none (some y)) s = .next (answering s (.fault .nullArgument))) ∧
    (∀ x, encode s.cfg (op (some x) none) =
      { cmd := 1, opcode := code, arg1Present := true, arg1 := toWires s.cfg.xlen x })

/-- The operand count of an arity-2 operation is wrong (R122): each form answers `ArityMismatch` and changes nothing else. -/
def ArityTwo (op : Option Int → Option Int → Instr) (s : State) : Prop :=
  (∀ x, exec (op (some x) none) s = .next (answering s (.fault .arityMismatch))) ∧
  (∀ y, exec (op none (some y)) s = .next (answering s (.fault .arityMismatch))) ∧
  exec (op none none) s = .next (answering s (.fault .arityMismatch))

/-- The wires of an arity-2 operation (spec/30_encoding.md R74, R76). -/
def EncodesBinary (op : Option Int → Option Int → Instr) (code : Nat) (c : Config) : Prop :=
  ∀ x y, encode c (op (some x) (some y)) =
    { cmd := 1, opcode := code, arg1Present := true, arg1 := toWires c.xlen x, arg2Present := true, arg2 := toWires c.xlen y }

/-- A value-returning arity-2 operation with the given code (R120 to R125), in every state that holds a block: with both operands it
answers a value of the width that `result` accepts and changes nothing else; on a wrong count it answers `ArityMismatch`. -/
def BinaryContract (op : Option Int → Option Int → Instr) (code : Nat) (result : Config → Int → Int → Int → Prop) : Prop :=
  ∀ s b, s.cfg.valid = true → s.block = some b →
    (∀ x y, inRange s.cfg.xlen x = true → inRange s.cfg.xlen y = true →
      ∃ r, inRange s.cfg.xlen r = true ∧ result s.cfg x y r ∧
        exec (op (some x) (some y)) s = .next (answering s (.ok (some r) false))) ∧
    ArityTwo op s ∧ EncodesBinary op code s.cfg

end Sys2Proof
end

