-- ==== Sys2Proof/Certificates/Slice0/Obligations.lean ====
section
/-!
DEFINITION. The statements about the block, from the numbered rules of spec/.
-/

open Sys2Proof Sys2Proof.Machine

/-! ## Encoding and decoding -/

/-- The selector words of the opcode table (R75, R76), zeros on every other wire, decode to the table's instructions; the codes
13 and -1 and the selects 0, 6 and 7 decode to none. -/
def Obligations.TableWordsDecode : Prop :=
  decodeTableWord 40 0x100000000 = some (.inc none none) ∧
  decodeTableWord 40 0x100000001 = some (.dec none none) ∧
  decodeTableWord 40 0x100000002 = some (.add none none) ∧
  decodeTableWord 40 0x100000009 = some (.not none none) ∧
  decodeTableWord 40 0x10000000B = some (.lshift none none) ∧
  decodeTableWord 40 0x10000000C = some (.cmp none none) ∧
  decodeTableWord 40 0x200000000 = some (.regRead 0) ∧
  decodeTableWord 40 0x3FFFFFFFF = some (.regWrite 0 0) ∧
  decodeTableWord 40 0x400000000 = some (.flagSet none false) ∧
  decodeTableWord 40 0x500000000 = some (.flagGet none) ∧
  decodeTableWord 40 0x10000000D = none ∧
  decodeTableWord 40 0x1FFFFFFFF = none ∧
  decodeTableWord 40 0x000000000 = none ∧
  decodeTableWord 40 0x600000000 = none ∧
  decodeTableWord 40 0x700000000 = none

/-- Decoding the encoding of any instruction the port can carry gives it back, at every setting of the parameters: no bit of an
operand, a presence bit or a flag name is dropped (R74, R76, R78 to R80). -/
def Obligations.DecodeEncode : Prop :=
  ∀ (c : Config) (i : Instr), c.valid = true → i.wf c = true → decode c (encode c i) = .instr i

/-- A command selects a row of the opcode table exactly when `SEL & mask = match`, whatever the other wires hold (R75). -/
def Obligations.RowSelected : Prop :=
  ∀ (p : Port) (row : TableRow), row ∈ opcodeTable →
    (sel Config.default p &&& row.mask = row.bits ↔
      ∃ i, decode Config.default p = .instr i ∧ i.mnemonic = row.mnemonic)

/-- Every valuation of the port is IDLE, one command with its arguments, or reserved (R84); a COMPUTE whose code is outside 0 to 12
stays a COMPUTE, to be answered when it is performed (R81). -/
def Obligations.DecodeTotal : Prop :=
  ∀ (c : Config) (p : Port),
    (p.cmd.toNat = 0 → decode c p = .idle) ∧
    (p.cmd.toNat = 1 → 0 ≤ ofWires c.xlen p.opcode → ofWires c.xlen p.opcode ≤ 12 →
      ∃ f, catalogue[(ofWires c.xlen p.opcode).toNat]? = some f ∧
        decode c p = .instr (f (operandOf c.xlen p.arg1Present p.arg1) (operandOf c.xlen p.arg2Present p.arg2))) ∧
    (p.cmd.toNat = 1 → ofWires c.xlen p.opcode < 0 ∨ 12 < ofWires c.xlen p.opcode →
      decode c p = .unknownOpCode (ofWires c.xlen p.opcode)) ∧
    (p.cmd.toNat = 2 → decode c p = .instr (.regRead (ofWires c.xlen p.addr))) ∧
    (p.cmd.toNat = 3 → decode c p = .instr (.regWrite (ofWires c.xlen p.addr) (ofWires c.xlen p.wdata))) ∧
    (p.cmd.toNat = 4 → decode c p = .instr (.flagSet (if p.fnamePresent then some p.fname else none) p.fstate)) ∧
    (p.cmd.toNat = 5 → decode c p = .instr (.flagGet (if p.fnamePresent then some p.fname else none))) ∧
    (6 ≤ p.cmd.toNat → decode c p = .reserved p.cmd)

/-- A field a format does not read, and the value wires of an absent operand or name, change nothing: two presentations that agree
on what the format of their `cmd` reads stand for the same command (R72, R74, R79, R80). -/
def Obligations.UnreadWiresIgnored : Prop :=
  ∀ (c : Config) (p q : Port), p.cmd = q.cmd →
    (p.cmd = 1 → p.opcode = q.opcode ∧ p.arg1Present = q.arg1Present ∧ (p.arg1Present = true → p.arg1 = q.arg1) ∧
      p.arg2Present = q.arg2Present ∧ (p.arg2Present = true → p.arg2 = q.arg2)) →
    (p.cmd = 2 → p.addr = q.addr) →
    (p.cmd = 3 → p.addr = q.addr ∧ p.wdata = q.wdata) →
    (p.cmd = 4 → p.fnamePresent = q.fnamePresent ∧ (p.fnamePresent = true → p.fname = q.fname) ∧ p.fstate = q.fstate) →
    (p.cmd = 5 → p.fnamePresent = q.fnamePresent ∧ (p.fnamePresent = true → p.fname = q.fname)) →
    decode c p = decode c q

/-- Whatever the wires hold, a decoded instruction's operands are `XLEN`-bit signed numbers (R12, R78). -/
def Obligations.DecodedFits : Prop :=
  ∀ (c : Config) (p : Port) (i : Instr), c.valid = true → decode c p = .instr i → i.wf c = true

/-! ## The step -/

/-- The instruction the port presents is the one performed, on the state without it in the list of inputs (R9, R59, R71). -/
def Obligations.StepRunsDecoded : Prop :=
  ∀ (s : State) (p : Port) (rest : List Input) (i : Instr), s.inputs = .present false p :: rest →
    decode s.cfg p = .instr i → step s = exec i { s with inputs := rest, answer := none }

/-- IDLE, or nothing presented at all: no change of the block and no answer (R71). -/
def Obligations.IdleDoesNothing : Prop :=
  (∀ s : State, s.inputs = [] → step s = .next { s with answer := none }) ∧
  (∀ (s : State) (p : Port) (rest : List Input), s.inputs = .present false p :: rest → p.cmd = 0 →
    step s = .next { s with inputs := rest, answer := none })

/-- A reserved select presented without the reset input is refused; it is neither IDLE nor a fault (R82). Beside the reset input it is
abandoned, by the model's choice (log entry 17). -/
def Obligations.ReservedSelectRefused : Prop :=
  ∀ (s : State) (p : Port) (rest : List Input), s.inputs = .present false p :: rest → p.cmd = 6 ∨ p.cmd = 7 →
    step s = .refused (.reservedSelect p.cmd)

/-- A COMPUTE whose code, read signed over its whole width, is outside 0 to 12 answers `UnknownOpCode` whatever its operands, and
changes nothing else (R121). -/
def Obligations.UnknownOpCodeFaults : Prop :=
  ∀ (s : State) (b : Block) (p : Port) (rest : List Input), s.block = some b → s.inputs = .present false p :: rest →
    p.cmd = 1 → ofWires s.cfg.xlen p.opcode < 0 ∨ 12 < ofWires s.cfg.xlen p.opcode →
    step s = .next { s with inputs := rest, answer := some (.fault .unknownOpCode) }

/-! ## Unary operations -/

/-- INC (R140). -/
def Obligations.IncRule : Prop := UnaryContract .inc 0 fun c x => wrap c.xlen (x + 1)

/-- DEC (R141), and that it undoes INC on every value, wrap-around included; this inverse law is the spec's own inference, which R141 marks
"derived: from rule R140 and this rule". -/
def Obligations.DecRule : Prop :=
  UnaryContract .dec 1 (fun c x => wrap c.xlen (x - 1)) ∧
  ∀ s b x, s.cfg.valid = true → s.block = some b → inRange s.cfg.xlen x = true →
    ∃ y z, exec (.inc (some x) none) s = .next (answering s (.ok (some y) false)) ∧
      exec (.dec (some y) none) s = .next (answering s (.ok (some x) false)) ∧
      exec (.dec (some x) none) s = .next (answering s (.ok (some z) false)) ∧
      exec (.inc (some z) none) s = .next (answering s (.ok (some x) false))

/-- NOT (R142): `-x - 1`, which is every bit complemented. -/
def Obligations.NotRule : Prop :=
  UnaryContract .not 9 (fun _ x => -x - 1) ∧
  ∀ s b x, s.cfg.valid = true → s.block = some b → inRange s.cfg.xlen x = true →
    ∃ r, exec (.not (some x) none) s = .next (answering s (.ok (some r) false)) ∧ inRange s.cfg.xlen r = true ∧
      ∀ i, i < s.cfg.xlen → getBit s.cfg.xlen r i = !getBit s.cfg.xlen x i

/-! ## Binary arithmetic -/

/-- ADD (R150). -/
def Obligations.AddRule : Prop := BinaryContract .add 2 fun c x y r => r = wrap c.xlen (x + y)

/-- SUB (R151). -/
def Obligations.SubRule : Prop := BinaryContract .sub 3 fun c x y r => r = wrap c.xlen (x - y)

/-- MUL (R152): the low `XLEN` bits of the exact product. -/
def Obligations.MulRule : Prop := BinaryContract .mul 4 fun c x y r => r = wrap c.xlen (x * y)

/-- DIV (R153): `DivisionByZero` for a zero divisor and every dividend; otherwise the wrapped integer of largest magnitude with
`|q| * |arg2| <= |arg1|`, negative when exactly one operand is negative and it is not 0; a wrong count is `ArityMismatch`. -/
def Obligations.DivRule : Prop :=
  ∀ s b, s.cfg.valid = true → s.block = some b →
    (∀ x, exec (.div (some x) (some 0)) s = .next (answering s (.fault .divisionByZero))) ∧
    (∀ x y, inRange s.cfg.xlen x = true → inRange s.cfg.xlen y = true → y ≠ 0 →
      ∃ q : Int, |q| * |y| ≤ |x| ∧ (∀ k : Int, |k| * |y| ≤ |x| → |k| ≤ |q|) ∧ (q < 0 ↔ q ≠ 0 ∧ (x < 0 ↔ ¬ y < 0)) ∧
        exec (.div (some x) (some y)) s = .next (answering s (.ok (some (wrap s.cfg.xlen q)) false))) ∧
    ArityTwo .div s ∧ EncodesBinary .div 5 s.cfg

/-- The quotient and its remainder (R154). -/
def Obligations.DivRelation : Prop :=
  ∀ s b x y, s.cfg.valid = true → s.block = some b → inRange s.cfg.xlen x = true → inRange s.cfg.xlen y = true → y ≠ 0 →
    ¬ (x = minInt s.cfg.xlen ∧ y = -1) →
    ∃ q r : Int, exec (.div (some x) (some y)) s = .next (answering s (.ok (some q) false)) ∧
      x = q * y + r ∧ |r| < |y| ∧ (r = 0 ∨ (r < 0 ↔ x < 0))

/-- INC, DEC, ADD, SUB and MUL answer the exact mathematical result exactly when it lies in `MIN..MAX`, and otherwise a number that
differs from it by a multiple of `2^XLEN`; nothing signals the wrap (R129). -/
def Obligations.WrapIsSilent : Prop :=
  ∀ s b x y, s.cfg.valid = true → s.block = some b → inRange s.cfg.xlen x = true → inRange s.cfg.xlen y = true →
    ∀ i e, (i, e) ∈ [(Instr.inc (some x) none, x + 1), (.dec (some x) none, x - 1), (.add (some x) (some y), x + y),
        (.sub (some x) (some y), x - y), (.mul (some x) (some y), x * y)] →
      ∃ r, exec i s = .next (answering s (.ok (some r) false)) ∧ (r = e ↔ inRange s.cfg.xlen e = true) ∧
        ∃ k : Int, e = r + k * ((2 ^ s.cfg.xlen : Nat) : Int)

/-! ## Bitwise operations and shifts -/

/-- AND (R160), bit by bit. -/
def Obligations.AndRule : Prop :=
  BinaryContract .and 6 fun c x y r => ∀ i, i < c.xlen → getBit c.xlen r i = (getBit c.xlen x i && getBit c.xlen y i)

/-- OR (R161), bit by bit. -/
def Obligations.OrRule : Prop :=
  BinaryContract .or 7 fun c x y r => ∀ i, i < c.xlen → getBit c.xlen r i = (getBit c.xlen x i || getBit c.xlen y i)

/-- XOR (R162), bit by bit. -/
def Obligations.XorRule : Prop :=
  BinaryContract .xor 8 fun c x y r => ∀ i, i < c.xlen → getBit c.xlen r i = (getBit c.xlen x i ^^ getBit c.xlen y i)

/-- RSHIFT (R163): `floor(arg1 / 2^sh)`, bit by bit the arithmetic right shift; the distance is `SHAMT(arg2)`, by default the low bits
of `arg2` read unsigned, `arg2 mod XLEN`. -/
def Obligations.RshiftRule : Prop :=
  BinaryContract .rshift 10 (fun c x y r =>
    r * (2 ^ shamt c y : Nat) ≤ x ∧ x < (r + 1) * (2 ^ shamt c y : Nat) ∧
    ∀ i, i < c.xlen → getBit c.xlen r i =
      if i + shamt c y < c.xlen then getBit c.xlen x (i + shamt c y) else getBit c.xlen x (c.xlen - 1)) ∧
  ∀ (c : Config) (y : Int), c.valid = true → c.shamtTable = [] →
    shamt c y < c.xlen ∧ (shamt c y : Int) = y % (c.xlen : Int) ∧ shamt c y = (toBits c.xlen y).toNat % c.xlen

/-- LSHIFT (R164): the right shift the source records, operand for operand RSHIFT, while `LSHIFT_FIXED` is false. -/
def Obligations.LshiftRule : Prop :=
  BinaryContract .lshift 11 (fun c x y r =>
    (c.lshiftFixed = false → r * (2 ^ shamt c y : Nat) ≤ x ∧ x < (r + 1) * (2 ^ shamt c y : Nat)) ∧
    (c.lshiftFixed = true → r = wrap c.xlen (x * (2 ^ shamt c y : Nat)))) ∧
  ∀ (s : State) (a1 a2 : Option Int), s.cfg.lshiftFixed = false → exec (.lshift a1 a2) s = exec (.rshift a1 a2) s

/-- LSHIFT under `LSHIFT_FIXED` (R165), bit by bit the left shift. -/
def Obligations.LshiftFixedRule : Prop :=
  BinaryContract .lshift 11 fun c x y r => c.lshiftFixed = true →
    r = wrap c.xlen (x * (2 ^ shamt c y : Nat)) ∧
    ∀ i, i < c.xlen → getBit c.xlen r i = (decide (shamt c y ≤ i) && getBit c.xlen x (i - shamt c y))

/-! ## Compare -/

/-- CMP (R170): the three flags cleared and one set by the sign of the difference, exact or wrapped as `CMP_WRAP` says; every other bit
of cell 0 kept, cell 0 written, no value, no diagnostic; every other cell as before; a wrong count is `ArityMismatch` and changes
no flag. -/
def Obligations.CmpRule : Prop :=
  ∀ s b, s.cfg.valid = true → s.block = some b →
    (∀ x y, inRange s.cfg.xlen x = true → inRange s.cfg.xlen y = true →
      ∃ v, exec (.cmp (some x) (some y)) s =
          .next (answering { s with block := some { b with srWritten := true, sr := v } } (.ok none false)) ∧
        inRange s.cfg.xlen v = true ∧
        (∀ d : Int, (s.cfg.cmpWrap = false → d = x - y) → (s.cfg.cmpWrap = true → d = wrap s.cfg.xlen (x - y)) →
          (getFlag s.cfg v .negative = decide (d < 0)) ∧ (getFlag s.cfg v .carry = decide (d > 0)) ∧
          (getFlag s.cfg v .zero = decide (d = 0))) ∧
        (∀ i, i < s.cfg.xlen → (∀ f, i ≠ s.cfg.flagBit f) → getBit s.cfg.xlen v i = getBit s.cfg.xlen b.sr i)) ∧
    ArityTwo .cmp s ∧ EncodesBinary .cmp 12 s.cfg

/-- The outcome of CMP is the signed order of its operands and nothing else, whatever the flags were: exactly one flag (R171, R172). -/
def Obligations.CmpOutcome : Prop :=
  ∀ s b x y, s.cfg.valid = true → s.cfg.cmpWrap = false → s.block = some b → inRange s.cfg.xlen x = true →
    inRange s.cfg.xlen y = true →
    ∃ t b', exec (.cmp (some x) (some y)) s = .next t ∧ t.block = some b' ∧ b'.srWritten = true ∧
      getFlag s.cfg b'.sr .zero = decide (x = y) ∧ getFlag s.cfg b'.sr .carry = decide (y < x) ∧
      getFlag s.cfg b'.sr .negative = decide (x < y) ∧
      (∃ f, ∀ g, getFlag s.cfg b'.sr g = true ↔ g = f)

/-- The exact and the wrapped reading of CMP agree when the exact difference lies in `MIN..MAX`; and the exact one is the sign bit of the
`XLEN`-bit difference corrected by its overflow (R174). -/
def Obligations.CmpWrapAgainstExact : Prop :=
  ∀ (c : Config) (x y : Int), c.valid = true → inRange c.xlen x = true → inRange c.xlen y = true →
    (inRange c.xlen (x - y) = true → cmpDiff { c with cmpWrap := true } x y = cmpDiff { c with cmpWrap := false } x y) ∧
    (decide (cmpDiff { c with cmpWrap := false } x y < 0) =
      (getBit c.xlen (wrap c.xlen (x - y)) (c.xlen - 1) ^^
        ((getBit c.xlen x (c.xlen - 1) != getBit c.xlen y (c.xlen - 1)) &&
          (getBit c.xlen (wrap c.xlen (x - y)) (c.xlen - 1) != getBit c.xlen x (c.xlen - 1)))))

/-! ## The register file -/

/-- REG_READ (R101): `OutOfBounds` outside 0 to N, else `Uninitialized` while the cell has never been written, else its value;
nothing but the answer changes. -/
def Obligations.RegReadRule : Prop :=
  ∀ s b addr, s.cfg.valid = true → s.block = some b → inRange s.cfg.xlen addr = true →
    (addr < 0 ∨ (b.n : Int) < addr → exec (.regRead addr) s = .next (answering s (.fault .outOfBounds))) ∧
    (0 ≤ addr → addr ≤ (b.n : Int) → b.readCell addr.toNat = none →
      exec (.regRead addr) s = .next (answering s (.fault .uninitialized))) ∧
    (∀ v, 0 ≤ addr → addr ≤ (b.n : Int) → b.readCell addr.toNat = some v →
      exec (.regRead addr) s = .next (answering s (.ok (some v) false))) ∧
    encode s.cfg (.regRead addr) = { cmd := 2, addr := toWires s.cfg.xlen addr }

/-- REG_WRITE (R102): `OutOfBounds` outside 0 to N and nothing written; else the cell holds the value and is written, every other cell
and the status register reads as before unless it is the one written, the register count stands, and at address 0 the flags are the bits of
the value and the answer carries the diagnostic. -/
def Obligations.RegWriteRule : Prop :=
  ∀ s b addr v, s.cfg.valid = true → s.block = some b → inRange s.cfg.xlen addr = true → inRange s.cfg.xlen v = true →
    (addr < 0 ∨ (b.n : Int) < addr → exec (.regWrite addr v) s = .next (answering s (.fault .outOfBounds))) ∧
    (0 ≤ addr → addr ≤ (b.n : Int) →
      ∃ b', exec (.regWrite addr v) s = .next (answering { s with block := some b' } (.ok none (decide (addr = 0)))) ∧
        b'.n = b.n ∧ b'.readCell addr.toNat = some v ∧ (∀ a, a ≠ addr.toNat → b'.readCell a = b.readCell a) ∧
        (addr ≠ 0 → b'.sr = b.sr ∧ b'.srWritten = b.srWritten) ∧
        (addr = 0 → ∀ f, getFlag s.cfg b'.sr f = getBit s.cfg.xlen v (s.cfg.flagBit f))) ∧
    encode s.cfg (.regWrite addr v) =
      { cmd := 3, addr := toWires s.cfg.xlen addr, wdata := toWires s.cfg.xlen v }

/-- The diagnostic is 1 in the answer to a performed REG_WRITE of address 0 and in no other answer (R103). -/
def Obligations.DiagnosticOnlyAtZero : Prop :=
  ∀ (i : Instr) (s s' : State), s.cfg.valid = true → i.wf s.cfg = true → exec i s = .next s' →
    ((∃ r, s'.answer = some (.ok r true)) ↔ ∃ v, i = .regWrite 0 v)

/-- A read after a write answers the value written, through any number of commands between them that do not write the cell; for cell 0 a
write is also a FLAG_SET or a CMP, and the read then answers the flag bits as written and the other bits as before (R57). -/
def Obligations.ReadAfterWrite : Prop :=
  (∀ (s s1 s2 : State) (b : Block) (addr v : Int) (between : List Instr), s.cfg.valid = true → s.block = some b →
    0 ≤ addr → addr ≤ (b.n : Int) → inRange s.cfg.xlen addr = true → inRange s.cfg.xlen v = true →
    exec (.regWrite addr v) s = .next s1 → (∀ i ∈ between, writesCell s.cfg addr.toNat i = false) →
    execAll between s1 = .next s2 → exec (.regRead addr) s2 = .next (answering s2 (.ok (some v) false))) ∧
  (∀ (s s1 s2 : State) (b : Block) (name : Option (BitVec 8)) (f : Flag) (st : Bool) (between : List Instr),
    s.cfg.valid = true → s.block = some b → checkName name = .ok f → exec (.flagSet name st) s = .next s1 →
    (∀ i ∈ between, writesCell s.cfg 0 i = false) → execAll between s1 = .next s2 →
    ∃ v, exec (.regRead 0) s2 = .next (answering s2 (.ok (some v) false)) ∧
      ∀ i, i < s.cfg.xlen → getBit s.cfg.xlen v i = if i = s.cfg.flagBit f then st else getBit s.cfg.xlen b.sr i) ∧
  (∀ (s s1 s2 : State) (b : Block) (x y : Int) (between : List Instr), s.cfg.valid = true → s.block = some b →
    inRange s.cfg.xlen x = true → inRange s.cfg.xlen y = true → exec (.cmp (some x) (some y)) s = .next s1 →
    (∀ i ∈ between, writesCell s.cfg 0 i = false) → execAll between s1 = .next s2 →
    ∃ v, exec (.regRead 0) s2 = .next (answering s2 (.ok (some v) false)) ∧
      (∀ f, getFlag s.cfg v f = decide (f = cmpFlag (cmpDiff s.cfg x y))) ∧
      ∀ i, i < s.cfg.xlen → (∀ f, i ≠ s.cfg.flagBit f) → getBit s.cfg.xlen v i = getBit s.cfg.xlen b.sr i)

/-! ## Flags -/

/-- The legal flag names are exactly `"Z"`, `"C"`, `"N"`: of every string a host adapter can hold, those three name a flag, every other one
is `InvalidFlagName`, and no string is `NullArgument` (R80, R104). -/
def Obligations.FlagNameCheck : Prop :=
  ∀ name : Option (List Char), ∀ p : Port, p.fnamePresent = (adapterName name).1 → p.fname = (adapterName name).2 →
    (name = none → checkName (fnameOf p) = .error .nullArgument) ∧
    (name = some ['Z'] → checkName (fnameOf p) = .ok .zero) ∧
    (name = some ['C'] → checkName (fnameOf p) = .ok .carry) ∧
    (name = some ['N'] → checkName (fnameOf p) = .ok .negative) ∧
    (name ≠ none → name ≠ some ['Z'] → name ≠ some ['C'] → name ≠ some ['N'] →
      checkName (fnameOf p) = .error .invalidFlagName)

/-- FLAG_SET (R105, R28): the named bit takes the state, every other bit of cell 0 is kept, cell 0 is written, every other cell is as
before; an absent or an illegal name faults and writes nothing. -/
def Obligations.FlagSetRule : Prop :=
  ∀ s b, s.cfg.valid = true → s.block = some b →
    (∀ name st f, checkName name = .ok f →
      ∃ v, exec (.flagSet name st) s =
          .next (answering { s with block := some { b with srWritten := true, sr := v } } (.ok none false)) ∧
        inRange s.cfg.xlen v = true ∧ getFlag s.cfg v f = st ∧ (∀ g, g ≠ f → getFlag s.cfg v g = getFlag s.cfg b.sr g) ∧
        (∀ i, i < s.cfg.xlen → i ≠ s.cfg.flagBit f → getBit s.cfg.xlen v i = getBit s.cfg.xlen b.sr i)) ∧
    (∀ st, exec (.flagSet none st) s = .next (answering s (.fault .nullArgument))) ∧
    (∀ code st, flagOfCode code = none → exec (.flagSet (some code) st) s = .next (answering s (.fault .invalidFlagName))) ∧
    (∀ code st, encode s.cfg (.flagSet (some code) st) = { cmd := 4, fnamePresent := true, fname := code, fstate := st })

/-- FLAG_GET (R106): the named bit as 0 or 1; on a status register never written, under `FLAG_GET_FRESH = fault`, `Uninitialized`, after
the checks of the name; nothing but the answer changes. -/
def Obligations.FlagGetRule : Prop :=
  ∀ s b, s.cfg.valid = true → s.block = some b →
    (∀ name f, checkName name = .ok f → b.srWritten = true ∨ s.cfg.flagGetFresh = .zero →
      exec (.flagGet name) s = .next (answering s (.ok (some (if getFlag s.cfg b.sr f then 1 else 0)) false))) ∧
    (∀ name f, checkName name = .ok f → b.srWritten = false → s.cfg.flagGetFresh = .fault →
      exec (.flagGet name) s = .next (answering s (.fault .uninitialized))) ∧
    exec (.flagGet none) s = .next (answering s (.fault .nullArgument)) ∧
    (∀ code, flagOfCode code = none → exec (.flagGet (some code)) s = .next (answering s (.fault .invalidFlagName))) ∧
    (∀ code, encode s.cfg (.flagGet (some code)) = { cmd := 5, fnamePresent := true, fname := code })

/-- The status register while never written (R31): a whole read faults, a flag read answers 0 or faults as `FLAG_GET_FRESH` says, and a
flag write succeeds, acts on the value 0 and marks the cell written. -/
def Obligations.FreshStatus : Prop :=
  ∀ s b, s.wf = true → s.block = some b → b.srWritten = false →
    exec (.regRead 0) s = .next (answering s (.fault .uninitialized)) ∧
    (∀ name f, checkName name = .ok f → s.cfg.flagGetFresh = .zero →
      exec (.flagGet name) s = .next (answering s (.ok (some 0) false))) ∧
    (∀ name f, checkName name = .ok f → s.cfg.flagGetFresh = .fault →
      exec (.flagGet name) s = .next (answering s (.fault .uninitialized))) ∧
    (∀ name f st, checkName name = .ok f → ∃ t v, exec (.flagSet name st) s = .next t ∧
      exec (.regRead 0) t = .next (answering t (.ok (some v) false)) ∧
      ∀ i, i < s.cfg.xlen → getBit s.cfg.xlen v i = (decide (i = s.cfg.flagBit f) && st)) ∧
    (∀ x y, inRange s.cfg.xlen x = true → inRange s.cfg.xlen y = true → ∃ t v f, exec (.cmp (some x) (some y)) s = .next t ∧
      exec (.regRead 0) t = .next (answering t (.ok (some v) false)) ∧
      ∀ i, i < s.cfg.xlen → getBit s.cfg.xlen v i = decide (i = s.cfg.flagBit f))

/-- A flag has only three sources: FLAG_SET of its name, CMP, a REG_WRITE of address 0. After any other command, and after one of these
that faults, it is what it was (R29, R30, R175). -/
def Obligations.FlagSources : Prop :=
  ∀ (i : Instr) (s s' : State) (b b' : Block) (f : Flag), s.cfg.valid = true → i.wf s.cfg = true → s.block = some b →
    exec i s = .next s' → s'.block = some b' →
    (∀ name st, i = .flagSet name st → checkName name = .ok f → getFlag s.cfg b'.sr f = st) ∧
    (∀ x y, i = .cmp (some x) (some y) → getFlag s.cfg b'.sr f = decide (f = cmpFlag (cmpDiff s.cfg x y))) ∧
    (∀ v, i = .regWrite 0 v → getFlag s.cfg b'.sr f = getBit s.cfg.xlen v (s.cfg.flagBit f)) ∧
    ((∀ name st, i = .flagSet name st → checkName name ≠ .ok f) → (∀ x y, i ≠ .cmp (some x) (some y)) →
      (∀ v, i ≠ .regWrite 0 v) → getFlag s.cfg b'.sr f = getFlag s.cfg b.sr f)

/-! ## Faults -/

/-- A fault is precise: the state after a command that answers `Fault(k)` is the state before it, but for the answer and, in a step, the
command taken off the list of what the control unit presents (R189). A construction that faults is such a command where no block exists
yet; one that faults beside a block leaves none (R100, log entry 7). -/
def Obligations.FaultChangesNothing : Prop :=
  (∀ (i : Instr) (s s' : State) (k : FaultKind), exec i s = .next s' → s'.answer = some (.fault k) →
    s' = { s with answer := some (.fault k) }) ∧
  (∀ (s s' : State) (k : FaultKind), step s = .next s' → s'.answer = some (.fault k) →
    (∀ n rest, s.inputs = .construct n :: rest → s.block = none) →
    s' = { s with inputs := s.inputs.tail, answer := some (.fault k) })

/-- After a fault the block accepts the next command and performs it as if the faulting one had never been issued (R190): whatever
command of the table comes next; and after a step that faults, whatever was presented (a code outside the table and a construction
among it), whatever the control unit presents next. A construction that faults beside a block leaves none (R100, log entry 7), so it is
taken where no block exists. -/
def Obligations.AfterFault : Prop :=
  (∀ (i j : Instr) (s s' : State) (k : FaultKind), exec i s = .next s' → s'.answer = some (.fault k) → exec j s' = exec j s) ∧
  (∀ (s s' : State) (k : FaultKind), step s = .next s' → s'.answer = some (.fault k) →
    (∀ n rest, s.inputs = .construct n :: rest → s.block = none) →
    ∀ later : List Input, step { s' with inputs := later } = step { s with inputs := later })

/-- An answer on the response port (R73): `Ok` is status 0 with a result exactly where there is one; `Fault` is the kind's code, with no
result and no diagnostic; the codes are the eight of R180, so the statuses 9 to 15 never occur. -/
def Obligations.ResponseWires : Prop :=
  ∀ c : Config,
    (∀ r d, (Answer.ok r d).toPort c = { status := 0, resultValid := r.isSome, result := r.map (toWires c.xlen), diag := d }) ∧
    (∀ k, ((Answer.fault k).toPort c).status.toNat = k.code ∧ ((Answer.fault k).toPort c).resultValid = false ∧
      ((Answer.fault k).toPort c).result = none ∧ ((Answer.fault k).toPort c).diag = false) ∧
    (∀ k : FaultKind, 1 ≤ k.code ∧ k.code ≤ 8) ∧ (∀ k l : FaultKind, k.code = l.code → k = l) ∧
    FaultKind.invalidConstruction.code = 1 ∧ FaultKind.outOfBounds.code = 2 ∧ FaultKind.uninitialized.code = 3 ∧
    FaultKind.unknownOpCode.code = 4 ∧ FaultKind.arityMismatch.code = 5 ∧ FaultKind.divisionByZero.code = 6 ∧
    FaultKind.invalidFlagName.code = 7 ∧ FaultKind.nullArgument.code = 8

/-! ## Rules of the whole machine -/

/-- Doing a command again changes nothing: it gives the same answer and leaves the state the first one left (R56). -/
def Obligations.RepeatChangesNothing : Prop :=
  ∀ (i : Instr) (s s' : State), exec i s = .next s' → exec i s' = .next s'

/-- REG_READ, FLAG_GET and every COMPUTE but CMP change no cell, no flag and nothing else but the answer (R24). -/
def Obligations.OnlyWritersChangeState : Prop :=
  ∀ (i : Instr) (s s' : State), writesNothing i = true → exec i s = .next s' → s' = { s with answer := s'.answer }

/-- A command that cannot write a cell leaves it: same value, same written bit (R24). -/
def Obligations.OtherCellsKept : Prop :=
  ∀ (i : Instr) (s s' : State) (b b' : Block) (a : Nat), s.block = some b → exec i s = .next s' → s'.block = some b' →
    writesCell s.cfg a i = false → b'.readCell a = b.readCell a

/-- A written bit never returns to 0 by a command: only the reset input and a new construction unwrite a cell (R23). -/
def Obligations.WrittenStaysWritten : Prop :=
  ∀ (s s' : State) (b : Block) (p : Port) (rest : List Input) (a : Nat), s.inputs = .present false p :: rest →
    s.block = some b → (b.readCell a).isSome = true → step s = .next s' →
    ∃ b', s'.block = some b' ∧ (b'.readCell a).isSome = true

/-- The answer of a value-returning operation depends on its operands and the parameters alone, not on the register file, the flags
or any earlier command (R124). -/
def Obligations.ValueOperationsArePure : Prop :=
  ∀ (i : Instr) (s t s' : State), returnsValue i = true → s.cfg = t.cfg → s.block.isSome = true → t.block.isSome = true →
    exec i s = .next s' → ∃ t', exec i t = .next t' ∧ t'.answer = s'.answer

/-- No step changes a parameter, and none but a construction changes the register count or makes a block appear or go (R20, R210). -/
def Obligations.ParametersFixed : Prop :=
  ∀ s s' : State, step s = .next s' →
    s'.cfg = s.cfg ∧
    ((∀ n rest, s.inputs ≠ .construct n :: rest) → s'.block.map Block.n = s.block.map Block.n)

/-! ## Construction and reset -/

/-- CONSTRUCT(n) (R100): with `n < 0`, `InvalidConstruction` and no block; with a representable count, a block of `n` general cells and the
status register, every cell never written and every flag 0; with a larger count, refused. -/
def Obligations.ConstructRule : Prop :=
  ∀ (s : State) (n : Int) (rest : List Input), s.cfg.valid = true → s.inputs = .construct n :: rest →
    (n < 0 → step s = .next { s with block := none, inputs := rest, answer := some (.fault .invalidConstruction) }) ∧
    (0 ≤ n → n ≤ (s.cfg.maxCount : Int) →
      ∃ b, step s = .next { s with block := some b, inputs := rest, answer := some (.ok none false) } ∧
        (b.n : Int) = n ∧ (∀ a, b.readCell a = none) ∧ b.sr = 0 ∧ (∀ f, getFlag s.cfg b.sr f = false)) ∧
    ((s.cfg.maxCount : Int) < n → step s = .refused (.countNotRepresentable n))

/-- The reset input (R211): the constructed state again, with the same register count; the command presented beside it is abandoned without
an answer and without effect. That a reserved select beside it is abandoned as a command is, is the model's choice (log entry 17). -/
def Obligations.ResetInputRule : Prop :=
  ∀ (s : State) (b : Block) (p : Port) (rest : List Input), s.inputs = .present true p :: rest → s.block = some b →
    ∃ b', step s = .next { s with block := some b', inputs := rest, answer := none } ∧
      b'.n = b.n ∧ (∀ a, b'.readCell a = none) ∧ b'.sr = 0 ∧ (∀ f, getFlag s.cfg b'.sr f = false)

/-- Where no block exists no command has a meaning (R100). -/
def Obligations.NoBlockRefused : Prop :=
  ∀ (i : Instr) (s : State), s.block = none → exec i s = .refused .noBlock

/-- What `State.reset` holds: the default parameters of R7, a block whose cells are never written and whose status value is 0, nothing
answered (R33); its register count is the model's choice (log entry 1). -/
def Obligations.ResetState : Prop :=
  State.reset.cfg = Config.default ∧ State.reset.answer = none ∧ State.reset.inputs = [] ∧
  ∃ b, State.reset.block = some b ∧ b.srWritten = false ∧ b.sr = 0 ∧ ∀ a, a ≤ b.n → b.readCell a = none

/-! ## Invariants and safety -/

/-- The state after reset is well formed. -/
def Obligations.ResetWellFormed : Prop := State.reset.wf = true

/-- Every step keeps the state well formed: parameters in their space, a representable register count, `XLEN`-bit values, general cells in
canonical form among 1 to N, and a status register that reads 0 while never written. -/
def Obligations.StepKeepsWellFormed : Prop :=
  ∀ s s' : State, s.wf = true → step s = .next s' → s'.wf = true

/-- A control unit that keeps its duties never meets a refusal, however many commands it issues and however malformed (R190, R213, R214): the
faults it earns are answers. That a reserved select beside the reset input is no breach of its duties is the model's choice (log
entry 17). -/
def Obligations.ConformingRunIsSafe : Prop :=
  ∀ (k : Nat) (s : State), s.wf = true → s.block.isSome = true → (∀ inp ∈ s.inputs, conforming s.cfg inp = true) → SafeFor k s

/-- Exactly what the model refuses: a construction outside the parameter space, the reset input or a command where no block exists, and a
reserved select without the reset input (beside it, log entry 17). -/
def Obligations.RefusedExactly : Prop :=
  ∀ s : State, (∃ r, step s = .refused r) ↔
    (∃ n rest, s.inputs = .construct n :: rest ∧ (s.cfg.valid = false ∨ (s.cfg.maxCount : Int) < n)) ∨
    (∃ p rest, s.inputs = .present true p :: rest ∧ s.block = none) ∨
    (∃ p rest, s.inputs = .present false p :: rest ∧ (6 ≤ p.cmd.toNat ∨ (1 ≤ p.cmd.toNat ∧ s.block = none)))
end

