-- ==== Sys2Proof/Laws/Word.lean ====
section
/-!
SUPPORT. What narrowing and the bit view of a value do.
-/

namespace Sys2Proof.Laws

open Sys2Proof

theorem two_pow_pred_double {xlen : Nat} (h : 0 < xlen) : (2 ^ xlen : Nat) = 2 * 2 ^ (xlen - 1) := by
  obtain ⟨n, rfl⟩ := Nat.exists_eq_succ_of_ne_zero h.ne'
  simp [Nat.pow_succ, Nat.mul_comm]

theorem inRange_iff {xlen : Nat} {v : Int} :
    inRange xlen v = true ↔ -((2 ^ (xlen - 1) : Nat) : Int) ≤ v ∧ v < ((2 ^ (xlen - 1) : Nat) : Int) := by
  rw [inRange, minInt, maxInt, decide_eq_true_iff]
  generalize ((2 ^ (xlen - 1) : Nat) : Int) = k
  constructor <;> rintro ⟨h1, h2⟩ <;> exact ⟨h1, by omega⟩

theorem wrap_inRange {xlen : Nat} (h : 0 < xlen) (e : Int) : inRange xlen (wrap xlen e) = true := by
  have h2 := two_pow_pred_double h
  have hp : 0 < 2 ^ xlen := Nat.two_pow_pos xlen
  have hl := Int.le_bmod (x := e) hp
  have hu := Int.bmod_lt (x := e) hp
  rw [inRange_iff, wrap]
  generalize 2 ^ (xlen - 1) = k at *
  rw [h2] at hl hu ⊢
  push_cast at hl hu
  omega

theorem wrap_of_inRange {xlen : Nat} (h : 0 < xlen) {v : Int} (hv : inRange xlen v = true) : wrap xlen v = v := by
  have h2 := two_pow_pred_double h
  rw [inRange_iff] at hv
  rw [wrap]
  generalize 2 ^ (xlen - 1) = k at *
  rw [h2]
  apply Int.bmod_eq_of_le <;> push_cast <;> omega

/-- `wrap(e)` and `e` differ by a multiple of `2^XLEN` (spec/00_scope.md R13). -/
theorem wrap_congr (xlen : Nat) (e : Int) : ∃ k : Int, wrap xlen e = e + k * ((2 ^ xlen : Nat) : Int) := by
  refine ⟨-(e.bdiv (2 ^ xlen)), ?_⟩
  have h := Int.bmod_add_bdiv e (2 ^ xlen)
  rw [wrap]
  linarith

theorem toBits_ofBits {xlen : Nat} (b : BitVec xlen) : toBits xlen (ofBits b) = b := by
  simp [toBits, ofBits]

theorem ofBits_toBits_wrap (xlen : Nat) (v : Int) : ofBits (toBits xlen v) = wrap xlen v := by
  simp [toBits, ofBits, wrap, BitVec.toInt_ofInt]

theorem ofBits_toBits {xlen : Nat} (h : 0 < xlen) {v : Int} (hv : inRange xlen v = true) :
    ofBits (toBits xlen v) = v := by
  rw [ofBits_toBits_wrap, wrap_of_inRange h hv]

theorem ofBits_inRange {xlen : Nat} (h : 0 < xlen) (b : BitVec xlen) : inRange xlen (ofBits b) = true := by
  rw [← toBits_ofBits b, ofBits_toBits_wrap]
  exact wrap_inRange h _

theorem toBits_wrap (xlen : Nat) (e : Int) : toBits xlen (wrap xlen e) = toBits xlen e := by
  rw [← ofBits_toBits_wrap, toBits_ofBits]

theorem wrap_zero (xlen : Nat) : wrap xlen 0 = 0 := by simp [wrap]

theorem zero_inRange (xlen : Nat) : inRange xlen 0 = true := by
  rw [inRange_iff]
  have h : (0 : Int) < ((2 ^ (xlen - 1) : Nat) : Int) := by exact_mod_cast Nat.two_pow_pos (xlen - 1)
  exact ⟨by omega, h⟩

/-- `-x - 1` is every bit complemented (spec/42_alu_unary.md R142). -/
theorem toBits_not (xlen : Nat) (x : Int) : toBits xlen (-x - 1) = ~~~ toBits xlen x := by
  rw [BitVec.not_eq_neg_add, show -x - 1 = -x + -1 by ring, toBits, BitVec.ofInt_add, BitVec.ofInt_neg, BitVec.ofInt_neg,
    BitVec.sub_eq_add_neg, toBits]
  simp

/-- A floor division by a power of two stays in the width. -/
theorem shr_inRange {xlen : Nat} {x : Int} (hx : inRange xlen x = true) (k : Nat) :
    inRange xlen (x / ((2 ^ k : Nat) : Int)) = true := by
  rw [inRange_iff] at *
  have hp : (0 : Int) < ((2 ^ k : Nat) : Int) := by exact_mod_cast Nat.two_pow_pos k
  generalize ((2 ^ k : Nat) : Int) = m at *
  generalize ((2 ^ (xlen - 1) : Nat) : Int) = w at *
  constructor
  · rw [Int.le_ediv_iff_mul_le hp]; nlinarith
  · rw [Int.ediv_lt_iff_lt_mul hp]; nlinarith

/-- The floor division is the arithmetic right shift of the pattern (spec/44_alu_logic_shift.md R163). -/
theorem toBits_shr {xlen : Nat} (h : 0 < xlen) {x : Int} (hx : inRange xlen x = true) (k : Nat) :
    toBits xlen (x / ((2 ^ k : Nat) : Int)) = (toBits xlen x).sshiftRight k := by
  apply BitVec.eq_of_toInt_eq
  have h1 : ∀ v, (toBits xlen v).toInt = wrap xlen v := fun v => ofBits_toBits_wrap xlen v
  rw [h1, BitVec.toInt_sshiftRight, h1, wrap_of_inRange h (shr_inRange hx k), wrap_of_inRange h hx, Int.shiftRight_eq_div_pow]

end Sys2Proof.Laws
end

