-- ==== Sys2Proof/Laws/Flags.lean ====
section
/-!
SUPPORT. Bits and flags of a value: what a write of one bit does to every bit.
-/

namespace Sys2Proof.Laws

open Sys2Proof Sys2Proof.Machine

theorem valid_iff {c : Config} : c.valid = true ↔ 8 ≤ c.xlen ∧ 2 ^ c.xlen.log2 = c.xlen ∧ c.flagZBit < c.xlen ∧
    c.flagCBit < c.xlen ∧ c.flagNBit < c.xlen ∧ c.flagZBit ≠ c.flagCBit ∧ c.flagZBit ≠ c.flagNBit ∧
    c.flagCBit ≠ c.flagNBit := by
  rw [Config.valid, decide_eq_true_iff]

theorem valid_xlen_pos {c : Config} (h : c.valid = true) : 0 < c.xlen := by
  have := (valid_iff.1 h).1
  omega

theorem flagBit_lt {c : Config} (h : c.valid = true) (f : Flag) : c.flagBit f < c.xlen := by
  obtain ⟨-, -, hz, hc, hn, -⟩ := valid_iff.1 h
  cases f <;> assumption

theorem flagBit_ne {c : Config} (h : c.valid = true) {f g : Flag} (hfg : f ≠ g) : c.flagBit f ≠ c.flagBit g := by
  obtain ⟨-, -, -, -, -, h1, h2, h3⟩ := valid_iff.1 h
  cases f <;> cases g <;> simp_all [Config.flagBit, Ne.symm]

/-- What writing one bit leaves in every bit of the width. -/
theorem getBit_putBit {xlen : Nat} (v : Int) (i j : Nat) (b : Bool) (hj : j < xlen) :
    getBit xlen (putBit xlen v i b) j = if j = i then b else getBit xlen v j := by
  unfold getBit putBit
  rw [toBits_ofBits]
  by_cases h : j = i
  · subst h; cases b <;> simp [hj]
  · cases b <;> simp [hj, h]

theorem getBit_putBit_same {xlen : Nat} (v : Int) (i : Nat) (b : Bool) (h : i < xlen) :
    getBit xlen (putBit xlen v i b) i = b := by
  rw [getBit_putBit v i i b h, if_pos rfl]

theorem getBit_putBit_other {xlen : Nat} (v : Int) {i j : Nat} (b : Bool) (hj : j < xlen) (h : j ≠ i) :
    getBit xlen (putBit xlen v i b) j = getBit xlen v j := by
  rw [getBit_putBit v i j b hj, if_neg h]

theorem putBit_inRange {xlen : Nat} (h : 0 < xlen) (v : Int) (i : Nat) (b : Bool) :
    inRange xlen (putBit xlen v i b) = true :=
  ofBits_inRange h _

/-- Two values of the width with the same bits are the same value. -/
theorem eq_of_getBit {xlen : Nat} (h : 0 < xlen) {v w : Int} (hv : inRange xlen v = true) (hw : inRange xlen w = true)
    (hb : ∀ i < xlen, getBit xlen v i = getBit xlen w i) : v = w := by
  rw [← ofBits_toBits h hv, ← ofBits_toBits h hw]
  exact congrArg _ (BitVec.eq_of_getLsbD_eq hb)

theorem getBit_ofBits {xlen : Nat} (b : BitVec xlen) (i : Nat) : getBit xlen (ofBits b) i = b.getLsbD i := by
  rw [getBit, toBits_ofBits]

theorem getBit_wrap (xlen : Nat) (v : Int) (i : Nat) : getBit xlen (wrap xlen v) i = getBit xlen v i := by
  rw [getBit, toBits_wrap, getBit]

theorem getFlag_putFlag {c : Config} (h : c.valid = true) (v : Int) (f g : Flag) (b : Bool) :
    getFlag c (putFlag c v f b) g = if g = f then b else getFlag c v g := by
  rw [getFlag, putFlag, getBit_putBit _ _ _ _ (flagBit_lt h g)]
  by_cases hg : g = f
  · simp [hg]
  · simp [hg, flagBit_ne h hg, getFlag]

/-- CMP sets the flag its difference names and clears the others (spec/45_alu_compare.md R170). -/
theorem getFlag_cmpStatus {c : Config} (h : c.valid = true) (v a b : Int) (f : Flag) :
    getFlag c (cmpStatus c v a b) f = decide (f = cmpFlag (cmpDiff c a b)) := by
  rw [cmpStatus, getFlag_putFlag h, getFlag_putFlag h, getFlag_putFlag h, getFlag_putFlag h]
  cases f <;> simp

/-- CMP keeps every bit that is no flag (spec/10_state.md R28). -/
theorem getBit_cmpStatus_other {c : Config} (v a b : Int) {i : Nat} (hi : i < c.xlen) (h : ∀ f, i ≠ c.flagBit f) :
    getBit c.xlen (cmpStatus c v a b) i = getBit c.xlen v i := by
  simp only [cmpStatus, putFlag]
  rw [getBit_putBit_other _ _ hi (h _), getBit_putBit_other _ _ hi (h _), getBit_putBit_other _ _ hi (h _),
    getBit_putBit_other _ _ hi (h _)]

theorem cmpStatus_inRange {c : Config} (h : 0 < c.xlen) (v a b : Int) : inRange c.xlen (cmpStatus c v a b) = true :=
  putBit_inRange h _ _ _

/-- The highest bit is the sign. -/
theorem getBit_top {xlen : Nat} (h : 0 < xlen) {v : Int} (hv : inRange xlen v = true) :
    getBit xlen v (xlen - 1) = decide (v < 0) := by
  rw [getBit, ← BitVec.msb_eq_getLsbD_last, BitVec.msb_eq_toInt]
  have h1 : (toBits xlen v).toInt = v := ofBits_toBits h hv
  rw [h1]

/-- The three legal character codes and the rest (spec/30_encoding.md R80). -/
theorem flagOfCode_cases (code : BitVec 8) :
    (code = 0x5A#8 ∧ flagOfCode code = some .zero) ∨ (code = 0x43#8 ∧ flagOfCode code = some .carry) ∨
    (code = 0x4E#8 ∧ flagOfCode code = some .negative) ∨
    (code ≠ 0x5A#8 ∧ code ≠ 0x43#8 ∧ code ≠ 0x4E#8 ∧ flagOfCode code = none) := by
  revert code
  decide

theorem putFlag_putFlag_same (c : Config) (v : Int) (f : Flag) (b : Bool) :
    putFlag c (putFlag c v f b) f b = putFlag c v f b := by
  simp only [putFlag, putBit, toBits_ofBits]
  congr 1
  cases b <;> simp
  · rw [BitVec.and_assoc, BitVec.and_self]
  · rw [BitVec.or_assoc, BitVec.or_self]

theorem cmpStatus_cmpStatus_same (c : Config) (v a b : Int) :
    cmpStatus c (cmpStatus c v a b) a b = cmpStatus c v a b := by
  simp only [cmpStatus, putFlag, putBit, toBits_ofBits]
  congr 1
  apply BitVec.eq_of_getLsbD_eq
  intro i hi
  simp [hi]
  grind

end Sys2Proof.Laws
end

