-- ==== Sys2Proof/Laws/Decode.lean ====
section
/-!
SUPPORT. The wires of a value and of an operand, and back.
-/

namespace Sys2Proof.Laws

open Sys2Proof

theorem toWires_lt (xlen : Nat) (v : Int) : toWires xlen v < 2 ^ xlen := by
  have h : (0 : Int) < ((2 ^ xlen : Nat) : Int) := by exact_mod_cast Nat.two_pow_pos xlen
  have h1 := Int.emod_nonneg v h.ne'
  have h2 := Int.emod_lt_of_pos v h
  rw [toWires]
  generalize (2 ^ xlen : Nat) = k at *
  omega

theorem ofWires_toWires_wrap (xlen : Nat) (v : Int) : ofWires xlen (toWires xlen v) = wrap xlen v := by
  have h : (0 : Int) < ((2 ^ xlen : Nat) : Int) := by exact_mod_cast Nat.two_pow_pos xlen
  rw [ofWires, toWires, Int.toNat_of_nonneg (Int.emod_nonneg v h.ne'), wrap, wrap, Int.emod_bmod]

/-- The wires carry every `XLEN`-bit number whole. -/
theorem ofWires_toWires {xlen : Nat} (h : 0 < xlen) {v : Int} (hv : inRange xlen v = true) :
    ofWires xlen (toWires xlen v) = v := by
  rw [ofWires_toWires_wrap, wrap_of_inRange h hv]

theorem ofWires_inRange {xlen : Nat} (h : 0 < xlen) (p : Nat) : inRange xlen (ofWires xlen p) = true := wrap_inRange h _

/-- A small number stands for itself on the wires. -/
theorem ofWires_small {xlen : Nat} (h : 8 ≤ xlen) {k : Nat} (hk : k < 128) : ofWires xlen k = (k : Int) := by
  apply wrap_of_inRange (by omega)
  have h2 : 2 ^ 7 ≤ 2 ^ (xlen - 1) := Nat.pow_le_pow_right (by omega) (by omega)
  rw [inRange_iff]
  generalize 2 ^ (xlen - 1) = m at *
  omega

theorem operandOf_toWires {c : Config} (h : 0 < c.xlen) {o : Option Int} (ho : operandFits c o = true) :
    operandOf c.xlen o.isSome ((o.map (toWires c.xlen)).getD 0) = o := by
  cases o with
  | none => rfl
  | some v => exact congrArg some (ofWires_toWires h ho)

theorem operandOf_fits {c : Config} (h : 0 < c.xlen) (present : Bool) (p : Nat) :
    operandFits c (operandOf c.xlen present p) = true := by
  cases present
  · rfl
  · exact ofWires_inRange h p

theorem decodeCompute_entry {k : Nat} {f : Option Int → Option Int → Instr} (h : catalogue[k]? = some f) (a b : Option Int) :
    decodeCompute (k : Int) a b = .instr (f a b) := by
  simp [decodeCompute, h]

/-- What a COMPUTE decodes to (spec/30_encoding.md R81). -/
theorem decodeCompute_cases (code : Int) (a b : Option Int) :
    (∃ (k : Nat) (f : Option Int → Option Int → Instr), code = (k : Int) ∧ k < 13 ∧ catalogue[k]? = some f ∧
      decodeCompute code a b = .instr (f a b)) ∨
    ((code < 0 ∨ 12 < code) ∧ decodeCompute code a b = .unknownOpCode code) := by
  unfold decodeCompute
  split
  · exact .inr ⟨.inl ‹_›, rfl⟩
  · split
    · next f hf =>
      have hk : code.toNat < 13 := (List.getElem?_eq_some_iff.1 hf).1
      exact .inl ⟨code.toNat, f, by omega, hk, hf, rfl⟩
    · next hf =>
      have hk : 13 ≤ code.toNat := List.getElem?_eq_none_iff.1 hf
      exact .inr ⟨.inr (by omega), rfl⟩

end Sys2Proof.Laws
end

