-- ==== Sys2Proof/Laws/Memory.lean ====
section
/-!
SUPPORT. The laws of the register file's storage: a read after a write, and the canonical form every write keeps.
-/

namespace Sys2Proof.Laws

open Sys2Proof Sys2Proof.Machine

theorem read_write_same (m : Memory) (a : Nat) (v : Int) : Memory.read (Memory.write m a v) a = some v := by
  induction m with
  | nil => simp [Memory.write, Memory.read]
  | cons e m ih =>
    obtain ⟨a', v'⟩ := e
    simp only [Memory.write]
    split_ifs with h1 h2
    · simp [Memory.read]
    · simp [Memory.read]
    · simp [Memory.read, Ne.symm h2, ih]

theorem read_write_other (m : Memory) {a a' : Nat} (v : Int) (h : a' ≠ a) :
    Memory.read (Memory.write m a v) a' = Memory.read m a' := by
  induction m with
  | nil => simp [Memory.write, Memory.read, h.symm]
  | cons e m ih =>
    obtain ⟨b, w⟩ := e
    simp only [Memory.write]
    split_ifs with h1 h2
    · simp [Memory.read, h.symm]
    · subst h2; simp [Memory.read, h.symm]
    · simp only [Memory.read, ih]

theorem write_write (m : Memory) (a : Nat) (v w : Int) :
    Memory.write (Memory.write m a v) a w = Memory.write m a w := by
  induction m with
  | nil => simp [Memory.write]
  | cons e m ih =>
    obtain ⟨b, u⟩ := e
    simp only [Memory.write]
    split_ifs with h1 h2
    · simp [Memory.write]
    · simp [Memory.write]
    · simp [Memory.write, h1, h2, ih]

/-- The addresses a write leaves: the old ones and the written one. -/
theorem mem_write {m : Memory} {a : Nat} {v : Int} {e : Nat × Int} (h : e ∈ Memory.write m a v) :
    e = (a, v) ∨ e ∈ m := by
  induction m with
  | nil => simpa [Memory.write] using h
  | cons e' m ih =>
    obtain ⟨b, u⟩ := e'
    simp only [Memory.write] at h
    split_ifs at h with h1 h2
    · simpa using h
    · rcases List.mem_cons.1 h with h | h
      · exact .inl h
      · exact .inr (List.mem_cons_of_mem _ h)
    · rcases List.mem_cons.1 h with h | h
      · exact .inr (by simp [h])
      · exact (ih h).imp_right (List.mem_cons_of_mem _)

theorem write_rising {m : Memory} (a : Nat) (v : Int) (h : (m.map Prod.fst).Pairwise (· < ·)) :
    ((Memory.write m a v).map Prod.fst).Pairwise (· < ·) := by
  induction m with
  | nil => simp [Memory.write]
  | cons e m ih =>
    obtain ⟨b, u⟩ := e
    simp only [List.map_cons, List.pairwise_cons] at h
    obtain ⟨hb, hm⟩ := h
    simp only [Memory.write]
    split_ifs with h1 h2
    · simp only [List.map_cons, List.pairwise_cons, List.mem_cons]
      refine ⟨?_, hb, hm⟩
      rintro x (rfl | hx)
      · exact h1
      · exact h1.trans (hb x hx)
    · subst h2
      simpa only [List.map_cons, List.pairwise_cons] using ⟨hb, hm⟩
    · simp only [List.map_cons, List.pairwise_cons]
      refine ⟨fun x hx => ?_, ih hm⟩
      obtain ⟨y, hy, rfl⟩ := List.mem_map.1 hx
      rcases mem_write hy with rfl | hy
      · simp only; omega
      · exact hb _ (List.mem_map.2 ⟨y, hy, rfl⟩)

theorem Memory_wf_iff {xlen n : Nat} {m : Memory} :
    m.wf xlen n = true ↔ (m.map Prod.fst).Pairwise (· < ·) ∧ ∀ e ∈ m, (1 ≤ e.1 ∧ e.1 ≤ n) ∧ inRange xlen e.2 = true := by
  simp [Memory.wf, List.all_eq_true]

/-- Every write of a cell the file has keeps the canonical form (spec/10_state.md R22). -/
theorem write_wf {xlen n : Nat} {m : Memory} {a : Nat} {v : Int} (h : m.wf xlen n = true) (ha : 1 ≤ a ∧ a ≤ n)
    (hv : inRange xlen v = true) : (Memory.write m a v).wf xlen n = true := by
  rw [Memory_wf_iff] at h ⊢
  refine ⟨write_rising a v h.1, fun e he => ?_⟩
  rcases mem_write he with rfl | he
  · exact ⟨ha, hv⟩
  · exact h.2 e he

theorem readCell_writeCell_same (b : Block) (a : Nat) (v : Int) : (b.writeCell a v).readCell a = some v := by
  by_cases h : a = 0
  · simp [Block.writeCell, Block.readCell, h]
  · simp [Block.writeCell, Block.readCell, h, read_write_same]

theorem readCell_writeCell_other (b : Block) {a a' : Nat} (v : Int) (h : a' ≠ a) :
    (b.writeCell a v).readCell a' = b.readCell a' := by
  by_cases h0 : a = 0
  · subst h0; simp [Block.writeCell, Block.readCell, h]
  · by_cases h1 : a' = 0
    · simp [Block.writeCell, Block.readCell, h0, h1]
    · simp [Block.writeCell, Block.readCell, h0, h1, read_write_other _ _ h]

theorem writeCell_writeCell (b : Block) (a : Nat) (v w : Int) : (b.writeCell a v).writeCell a w = b.writeCell a w := by
  by_cases h : a = 0
  · simp [Block.writeCell, h]
  · simp [Block.writeCell, h, write_write]

@[simp] theorem writeCell_n (b : Block) (a : Nat) (v : Int) : (b.writeCell a v).n = b.n := by
  unfold Block.writeCell; split <;> rfl

@[simp] theorem writeCell_zero_sr (b : Block) (v : Int) : (b.writeCell 0 v).sr = v := rfl

@[simp] theorem writeCell_zero_srWritten (b : Block) (v : Int) : (b.writeCell 0 v).srWritten = true := rfl

@[simp] theorem writeCell_zero_regs (b : Block) (v : Int) : (b.writeCell 0 v).regs = b.regs := rfl

theorem writeCell_pos_sr (b : Block) {a : Nat} (v : Int) (h : a ≠ 0) : (b.writeCell a v).sr = b.sr := by
  simp [Block.writeCell, h]

theorem writeCell_pos_srWritten (b : Block) {a : Nat} (v : Int) (h : a ≠ 0) :
    (b.writeCell a v).srWritten = b.srWritten := by
  simp [Block.writeCell, h]

theorem Block_wf_iff {c : Config} {b : Block} :
    b.wf c = true ↔ b.n ≤ c.maxCount ∧ inRange c.xlen b.sr = true ∧ (b.srWritten = true ∨ b.sr = 0) ∧
      b.regs.wf c.xlen b.n = true := by
  simp [Block.wf, and_assoc]

/-- Writing a cell of the file keeps the register file well formed. -/
theorem writeCell_wf {c : Config} {b : Block} {a : Nat} {v : Int} (h : b.wf c = true) (ha : a ≤ b.n)
    (hv : inRange c.xlen v = true) : (b.writeCell a v).wf c = true := by
  rw [Block_wf_iff] at h ⊢
  obtain ⟨h1, h2, h3, h4⟩ := h
  by_cases h0 : a = 0
  · subst h0; exact ⟨h1, hv, .inl rfl, h4⟩
  · rw [writeCell_n, writeCell_pos_sr b v h0, writeCell_pos_srWritten b v h0]
    refine ⟨h1, h2, h3, ?_⟩
    simp only [Block.writeCell, h0, if_false]
    exact write_wf h4 ⟨by omega, ha⟩ hv

/-- A freshly constructed file is well formed (spec/10_state.md R33). -/
theorem fresh_wf {c : Config} {n : Nat} (h : n ≤ c.maxCount) : (Block.fresh n).wf c = true := by
  rw [Block_wf_iff]
  exact ⟨h, zero_inRange _, .inr rfl, rfl⟩

/-- No cell of a freshly constructed file has been written (spec/70_reset_and_hazards.md R211). -/
theorem fresh_readCell (n a : Nat) : (Block.fresh n).readCell a = none := by
  by_cases h : a = 0 <;> simp [Block.fresh, Block.readCell, Memory.read, h]

end Sys2Proof.Laws
end

