-- ==== Sys2Proof/Laws/State.lean ====
section
/-!
SUPPORT. One lemma for each field of the state and each update of it.
-/

namespace Sys2Proof.Laws

open Sys2Proof Sys2Proof.Machine

@[simp] theorem setBlock_cfg (s : State) (b : Block) : (s.setBlock b).cfg = s.cfg := rfl
@[simp] theorem setBlock_block (s : State) (b : Block) : (s.setBlock b).block = some b := rfl
@[simp] theorem setBlock_inputs (s : State) (b : Block) : (s.setBlock b).inputs = s.inputs := rfl
@[simp] theorem setBlock_answer (s : State) (b : Block) : (s.setBlock b).answer = s.answer := rfl

@[simp] theorem take_cfg (s : State) (r : List Input) : (s.take r).cfg = s.cfg := rfl
@[simp] theorem take_block (s : State) (r : List Input) : (s.take r).block = s.block := rfl
@[simp] theorem take_inputs (s : State) (r : List Input) : (s.take r).inputs = r := rfl
@[simp] theorem take_answer (s : State) (r : List Input) : (s.take r).answer = none := rfl

@[simp] theorem withFetchWord_cfg (s : State) (k w : Nat) : (s.withFetchWord k w).cfg = s.cfg := rfl
@[simp] theorem withFetchWord_block (s : State) (k w : Nat) : (s.withFetchWord k w).block = s.block := rfl
@[simp] theorem withFetchWord_answer (s : State) (k w : Nat) : (s.withFetchWord k w).answer = s.answer := rfl
@[simp] theorem withFetchWord_inputs (s : State) (k w : Nat) :
    (s.withFetchWord k w).inputs = .present false (Port.ofSel s.cfg.xlen k w) :: s.inputs := rfl

@[simp] theorem fresh_n (n : Nat) : (Block.fresh n).n = n := rfl
@[simp] theorem fresh_srWritten (n : Nat) : (Block.fresh n).srWritten = false := rfl
@[simp] theorem fresh_sr (n : Nat) : (Block.fresh n).sr = 0 := rfl
@[simp] theorem fresh_regs (n : Nat) : (Block.fresh n).regs = [] := rfl

end Sys2Proof.Laws
end

