-- ==== Sys2Proof/Laws/Ops.lean ====
section
/-!
SUPPORT. What each shared operation can do, said once; and from that what any instruction can do.
-/

namespace Sys2Proof.Laws

open Sys2Proof Sys2Proof.Machine

/-- On an `XLEN`-bit number the wires change nothing. -/
theorem wire_of_inRange {c : Config} (h : c.valid = true) {v : Int} (hv : inRange c.xlen v = true) : wire c v = v :=
  wrap_of_inRange (valid_xlen_pos h) hv

theorem wire_inRange {c : Config} (h : 0 < c.xlen) (v : Int) : inRange c.xlen (wire c v) = true := wrap_inRange h v

theorem withBlock_some {s : State} {b : Block} (h : s.block = some b) (f : Block → Host.Outcome State Fault Refusal) :
    withBlock s f = f b := by simp [withBlock, h]

theorem withBlock_none {s : State} (h : s.block = none) (f : Block → Host.Outcome State Fault Refusal) :
    withBlock s f = .refused .noBlock := by simp [withBlock, h]

theorem withBlock_next {s s' : State} {f : Block → Host.Outcome State Fault Refusal} (h : withBlock s f = .next s') :
    ∃ b, s.block = some b ∧ f b = .next s' := by
  unfold withBlock at h
  split at h
  · cases h
  · exact ⟨_, ‹_›, h⟩

theorem selectCell_some {b : Block} {addr : Int} {a : Nat} (h : selectCell b addr = some a) : a ≤ b.n ∧ addr = (a : Int) := by
  unfold selectCell at h
  split at h
  · cases h; omega
  · cases h

theorem selectCell_of_bounds {b : Block} {addr : Int} (h : 0 ≤ addr ∧ addr ≤ (b.n : Int)) :
    selectCell b addr = some addr.toNat := if_pos h

theorem selectCell_of_not {b : Block} {addr : Int} (h : ¬ (0 ≤ addr ∧ addr ≤ (b.n : Int))) : selectCell b addr = none :=
  if_neg h

/-- The one write a writing command does: to which cell, of which value, with which diagnostic. -/
inductive Writes (c : Config) (b : Block) : Instr → Nat → Int → Bool → Prop where
  | reg {addr wdata : Int} {a : Nat} (h : selectCell b (wire c addr) = some a) :
      Writes c b (.regWrite addr wdata) a (wire c wdata) (decide (a = 0))
  | flag {name : Option (BitVec 8)} {st : Bool} {f : Flag} (h : checkName name = .ok f) :
      Writes c b (.flagSet name st) 0 (putFlag c b.sr f st) false
  | cmp (x y : Int) : Writes c b (.cmp (some x) (some y)) 0 (cmpStatus c b.sr (wire c x) (wire c y)) false

/-- Everything a command can do to the state when it gives a next one: answer a fault; answer a value, if it is no writing command;
or do its one write and answer no value. -/
inductive Effect (i : Instr) (s : State) (b : Block) : State → Prop where
  | faulted (k : FaultKind) : Effect i s b { s with answer := some (.fault k) }
  | answered (v : Int) (h : writesNothing i = true) : Effect i s b { s with answer := some (.ok (some v) false) }
  | wrote {a : Nat} {v : Int} {d : Bool} (h : Writes s.cfg b i a v d) :
      Effect i s b { s.setBlock (b.writeCell a v) with answer := some (.ok none d) }

theorem writes_le {c : Config} {b : Block} {i : Instr} {a : Nat} {v : Int} {d : Bool} (h : Writes c b i a v d) : a ≤ b.n := by
  cases h with
  | reg h => exact (selectCell_some h).1
  | flag _ => exact Nat.zero_le _
  | cmp _ _ => exact Nat.zero_le _

theorem writes_inRange {c : Config} {b : Block} {i : Instr} {a : Nat} {v : Int} {d : Bool} (hx : 0 < c.xlen)
    (h : Writes c b i a v d) : inRange c.xlen v = true := by
  cases h with
  | reg _ => exact wire_inRange hx _
  | flag _ => exact putBit_inRange hx _ _ _
  | cmp _ _ => exact cmpStatus_inRange hx _ _ _

theorem writes_writesCell {c : Config} {b : Block} {i : Instr} {a : Nat} {v : Int} {d : Bool} (h : Writes c b i a v d) :
    writesCell c a i = true := by
  cases h with
  | reg h => simp [writesCell, (selectCell_some h).2]
  | flag _ => rfl
  | cmp _ _ => rfl

theorem writes_not_writesNothing {c : Config} {b : Block} {i : Instr} {a : Nat} {v : Int} {d : Bool}
    (h : Writes c b i a v d) : writesNothing i = false := by
  cases h <;> rfl

/-- With the one operand it takes, an arity-1 operation answers its value. -/
theorem computeUnary_one {op : Config → Int → Int} {s : State} {b : Block} (hb : s.block = some b) (x : Int) :
    computeUnary op (some x) none s = .next { s with answer := some (.ok (some (op s.cfg (wire s.cfg x))) false) } := by
  simp [computeUnary, withBlock_some hb, operandCount, answerOk]

/-- With both operands, an arity-2 operation is dispatched. -/
theorem computeWith_both {op : Block → Int → Int → Host.Outcome State Fault Refusal} {s : State} {b : Block}
    (hb : s.block = some b) (x y : Int) : computeWith op (some x) (some y) s = op b (wire s.cfg x) (wire s.cfg y) := by
  simp [computeWith, withBlock_some hb, operandCount]

/-- A wrong operand count (spec/41_alu_dispatch.md R122). -/
theorem computeUnary_count {op : Config → Int → Int} {a1 a2 : Option Int} {s : State} {b : Block} (hb : s.block = some b)
    (h : operandCount a1 a2 ≠ 1) : computeUnary op a1 a2 s = raise .arityMismatch s := by
  simp [computeUnary, withBlock_some hb, h]

theorem computeWith_count {op : Block → Int → Int → Host.Outcome State Fault Refusal} {a1 a2 : Option Int} {s : State}
    {b : Block} (hb : s.block = some b) (h : operandCount a1 a2 ≠ 2) : computeWith op a1 a2 s = raise .arityMismatch s := by
  simp [computeWith, withBlock_some hb, h]

theorem computeUnary_effect {i : Instr} {op : Config → Int → Int} {a1 a2 : Option Int} {s s' : State}
    (hi : writesNothing i = true) (h : computeUnary op a1 a2 s = .next s') : ∃ b, s.block = some b ∧ Effect i s b s' := by
  obtain ⟨b, hb, h⟩ := withBlock_next h
  refine ⟨b, hb, ?_⟩
  split at h
  · cases h; exact .faulted _
  · cases a1 <;> cases h
    · exact .faulted _
    · exact .answered _ hi

/-- What an arity-2 operation can do: fault on its operand count, or what the operation does with both operands. -/
theorem computeWith_next {op : Block → Int → Int → Host.Outcome State Fault Refusal} {a1 a2 : Option Int} {s s' : State}
    (h : computeWith op a1 a2 s = .next s') : ∃ b, s.block = some b ∧
      ((∃ k, s' = { s with answer := some (.fault k) }) ∨
        ∃ x y, a1 = some x ∧ a2 = some y ∧ op b (wire s.cfg x) (wire s.cfg y) = .next s') := by
  obtain ⟨b, hb, h⟩ := withBlock_next h
  refine ⟨b, hb, ?_⟩
  split at h
  · cases h; exact .inl ⟨_, rfl⟩
  · split at h
    · exact .inr ⟨_, _, rfl, rfl, h⟩
    · cases h; exact .inl ⟨_, rfl⟩

theorem computeBinary_effect {i : Instr} {op : Config → Int → Int → Int} {a1 a2 : Option Int} {s s' : State}
    (hi : writesNothing i = true) (h : computeBinary op a1 a2 s = .next s') : ∃ b, s.block = some b ∧ Effect i s b s' := by
  obtain ⟨b, hb, ⟨k, rfl⟩ | ⟨x, y, -, -, e⟩⟩ := computeWith_next h
  · exact ⟨b, hb, .faulted k⟩
  · cases e; exact ⟨b, hb, .answered _ hi⟩

theorem execDiv_effect {a1 a2 : Option Int} {s s' : State} (h : execDiv a1 a2 s = .next s') :
    ∃ b, s.block = some b ∧ Effect (.div a1 a2) s b s' := by
  obtain ⟨b, hb, ⟨k, rfl⟩ | ⟨x, y, -, -, e⟩⟩ := computeWith_next h
  · exact ⟨b, hb, .faulted k⟩
  · split at e <;> cases e
    · exact ⟨b, hb, .faulted _⟩
    · exact ⟨b, hb, .answered _ rfl⟩

theorem execCmp_effect {a1 a2 : Option Int} {s s' : State} (h : execCmp a1 a2 s = .next s') :
    ∃ b, s.block = some b ∧ Effect (.cmp a1 a2) s b s' := by
  obtain ⟨b, hb, ⟨k, rfl⟩ | ⟨x, y, rfl, rfl, e⟩⟩ := computeWith_next h
  · exact ⟨b, hb, .faulted k⟩
  · cases e; exact ⟨b, hb, .wrote (.cmp x y)⟩

theorem execRegRead_effect {addr : Int} {s s' : State} (h : execRegRead addr s = .next s') :
    ∃ b, s.block = some b ∧ Effect (.regRead addr) s b s' := by
  obtain ⟨b, hb, h⟩ := withBlock_next h
  refine ⟨b, hb, ?_⟩
  split at h
  · cases h; exact .faulted _
  · split at h <;> cases h
    · exact .faulted _
    · exact .answered _ rfl

theorem execRegWrite_effect {addr v : Int} {s s' : State} (h : execRegWrite addr v s = .next s') :
    ∃ b, s.block = some b ∧ Effect (.regWrite addr v) s b s' := by
  obtain ⟨b, hb, h⟩ := withBlock_next h
  refine ⟨b, hb, ?_⟩
  split at h <;> cases h
  · exact .faulted _
  · exact .wrote (.reg ‹_›)

theorem execFlagSet_effect {name : Option (BitVec 8)} {st : Bool} {s s' : State} (h : execFlagSet name st s = .next s') :
    ∃ b, s.block = some b ∧ Effect (.flagSet name st) s b s' := by
  obtain ⟨b, hb, h⟩ := withBlock_next h
  refine ⟨b, hb, ?_⟩
  split at h <;> cases h
  · exact .faulted _
  · exact .wrote (.flag ‹_›)

theorem execFlagGet_effect {name : Option (BitVec 8)} {s s' : State} (h : execFlagGet name s = .next s') :
    ∃ b, s.block = some b ∧ Effect (.flagGet name) s b s' := by
  obtain ⟨b, hb, h⟩ := withBlock_next h
  refine ⟨b, hb, ?_⟩
  split at h
  · cases h; exact .faulted _
  · split at h <;> cases h
    · exact .faulted _
    · exact .answered _ rfl

/-- What any instruction can do. -/
theorem exec_effect {i : Instr} {s s' : State} (h : exec i s = .next s') : ∃ b, s.block = some b ∧ Effect i s b s' := by
  cases i with
  | inc => exact computeUnary_effect rfl h
  | dec => exact computeUnary_effect rfl h
  | not => exact computeUnary_effect rfl h
  | div => exact execDiv_effect h
  | cmp => exact execCmp_effect h
  | regRead => exact execRegRead_effect h
  | regWrite => exact execRegWrite_effect h
  | flagSet => exact execFlagSet_effect h
  | flagGet => exact execFlagGet_effect h
  | _ => exact computeBinary_effect rfl h

/-- What a COMPUTE outside the table can do (spec/41_alu_dispatch.md R121). -/
theorem computeUnknown_next {s s' : State} (h : computeUnknown s = .next s') :
    ∃ b, s.block = some b ∧ s' = { s with answer := some (.fault .unknownOpCode) } := by
  obtain ⟨b, hb, h⟩ := withBlock_next h
  cases h
  exact ⟨b, hb, rfl⟩

/-- What a construction can do (spec/40_regfile_commands.md R100). -/
theorem construct_next {n : Int} {s s' : State} (h : construct n s = .next s') :
    (n < 0 ∧ s' = { s with block := none, answer := some (.fault .invalidConstruction) }) ∨
    (0 ≤ n ∧ n ≤ (s.cfg.maxCount : Int) ∧
      s' = { s with block := some (Block.fresh n.toNat), answer := some (.ok none false) }) := by
  unfold construct at h
  split at h
  · cases h
  · split at h
    · cases h; exact .inl ⟨‹_›, rfl⟩
    · split at h
      · cases h
      · cases h; exact .inr ⟨by omega, by omega, rfl⟩

/-- What the reset input can do (spec/70_reset_and_hazards.md R211). -/
theorem assertReset_next {s s' : State} (h : assertReset s = .next s') :
    ∃ b, s.block = some b ∧ s' = { s with block := some (Block.fresh b.n) } := by
  obtain ⟨b, hb, h⟩ := withBlock_next h
  cases h
  exact ⟨b, hb, rfl⟩

/-- Every distance function can be written as the table of a configuration (spec/00_scope.md R7, `SHAMT`): holding a table instead of a
function leaves none out. -/
theorem shamtTable_complete (c : Config) (h : 0 < c.xlen) (f : Int → Nat) :
    ∃ table, ∀ v, inRange c.xlen v = true → shamt { c with shamtTable := table } v = f v := by
  refine ⟨(List.range (2 ^ c.xlen)).map fun k : Nat => (wrap c.xlen (k : Int), f (wrap c.xlen (k : Int))), fun v hv => ?_⟩
  unfold shamt
  split
  · next e he =>
    have h1 := List.find?_some he
    have h2 := List.mem_of_find?_eq_some he
    obtain ⟨k, -, rfl⟩ := List.mem_map.1 h2
    simp only [beq_iff_eq] at h1
    simp [h1]
  · next he =>
    exfalso
    have hp : (0 : Int) < ((2 ^ c.xlen : Nat) : Int) := by exact_mod_cast Nat.two_pow_pos c.xlen
    have hk := List.find?_eq_none.1 he (wrap c.xlen ((v % ((2 ^ c.xlen : Nat) : Int)).toNat : Nat), f _)
      (List.mem_map.2 ⟨(v % ((2 ^ c.xlen : Nat) : Int)).toNat, List.mem_range.2 ?_, rfl⟩)
    · apply hk
      rw [Int.toNat_of_nonneg (Int.emod_nonneg v hp.ne')]
      simp only [wrap, Int.emod_bmod, beq_iff_eq]
      exact wrap_of_inRange h hv
    · have h1 := Int.emod_nonneg v hp.ne'
      have h2 := Int.emod_lt_of_pos v hp
      generalize (2 ^ c.xlen : Nat) = m at *
      omega

/-- No command reads the answer of the step before it. -/
theorem exec_answer (i : Instr) (s : State) (a : Option Answer) : exec i { s with answer := a } = exec i s := by
  cases i <;> rfl

theorem computeUnary_answers {s : State} {b : Block} (hb : s.block = some b) (op : Config → Int → Int) (a1 a2 : Option Int) :
    ∃ s', computeUnary op a1 a2 s = .next s' := by
  rw [computeUnary.eq_def, withBlock_some hb]
  split
  · exact ⟨_, rfl⟩
  · cases a1 <;> exact ⟨_, rfl⟩

theorem computeWith_answers {s : State} {b : Block} (hb : s.block = some b)
    {op : Block → Int → Int → Host.Outcome State Fault Refusal} (h : ∀ x y, ∃ s', op b x y = .next s') (a1 a2 : Option Int) :
    ∃ s', computeWith op a1 a2 s = .next s' := by
  rw [computeWith, withBlock_some hb]
  split
  · exact ⟨_, rfl⟩
  · cases a1 <;> cases a2 <;> first | exact h _ _ | exact ⟨_, rfl⟩

theorem computeBinary_answers {s : State} {b : Block} (hb : s.block = some b) (op : Config → Int → Int → Int)
    (a1 a2 : Option Int) : ∃ s', computeBinary op a1 a2 s = .next s' :=
  computeWith_answers hb (fun _ _ => ⟨_, rfl⟩) a1 a2

/-- Where a block exists, every command is answered. -/
theorem exec_next (i : Instr) {s : State} {b : Block} (hb : s.block = some b) : ∃ s', exec i s = .next s' := by
  cases i with
  | inc => exact computeUnary_answers hb _ _ _
  | dec => exact computeUnary_answers hb _ _ _
  | not => exact computeUnary_answers hb _ _ _
  | div => rw [exec, execDiv]; exact computeWith_answers hb (fun x y => by split <;> exact ⟨_, rfl⟩) _ _
  | cmp => rw [exec, execCmp]; exact computeWith_answers hb (fun x y => ⟨_, rfl⟩) _ _
  | regRead =>
    rw [exec, execRegRead, withBlock_some hb]
    split
    · exact ⟨_, rfl⟩
    · split <;> exact ⟨_, rfl⟩
  | regWrite => rw [exec, execRegWrite, withBlock_some hb]; split <;> exact ⟨_, rfl⟩
  | flagSet => rw [exec, execFlagSet, withBlock_some hb]; split <;> exact ⟨_, rfl⟩
  | flagGet =>
    rw [exec, execFlagGet, withBlock_some hb]
    split
    · exact ⟨_, rfl⟩
    · split <;> exact ⟨_, rfl⟩
  | _ => exact computeBinary_answers hb _ _ _

end Sys2Proof.Laws
end

