-- ==== Sys2Proof/Laws/PerInstr.lean ====
section
/-!
SUPPORT. One lemma for each constructor of `Instr`: the selector word its encoding presents is the one its row of the opcode table
selects (spec/30_encoding.md R75).
-/

namespace Sys2Proof.Laws

open Sys2Proof

/-- The selector word of a row, for any width: `{cmd, opcode}` with `cmd = 1` for a COMPUTE (R75). -/
def rowSelector (xlen : Nat) : Instr → Nat
  | .inc _ _ => 2 ^ xlen
  | .dec _ _ => 2 ^ xlen + 1
  | .add _ _ => 2 ^ xlen + 2
  | .sub _ _ => 2 ^ xlen + 3
  | .mul _ _ => 2 ^ xlen + 4
  | .div _ _ => 2 ^ xlen + 5
  | .and _ _ => 2 ^ xlen + 6
  | .or _ _ => 2 ^ xlen + 7
  | .xor _ _ => 2 ^ xlen + 8
  | .not _ _ => 2 ^ xlen + 9
  | .rshift _ _ => 2 ^ xlen + 10
  | .lshift _ _ => 2 ^ xlen + 11
  | .cmp _ _ => 2 ^ xlen + 12
  | .regRead _ => 2 * 2 ^ xlen
  | .regWrite _ _ => 3 * 2 ^ xlen
  | .flagSet _ _ => 4 * 2 ^ xlen
  | .flagGet _ => 5 * 2 ^ xlen

theorem sel_compute {c : Config} (h : c.valid = true) {k : Nat} (hk : k < 13) (a b : Option Int) :
    sel c (encodeCompute c k a b) = 2 ^ c.xlen + k := by
  have h2 : 2 ^ 8 ≤ 2 ^ c.xlen := Nat.pow_le_pow_right (by omega) (valid_iff.1 h).1
  have hm : k % 2 ^ c.xlen = k := Nat.mod_eq_of_lt (by omega)
  simp [sel, encodeCompute, hm]

/-- The encoding presents its row's selector word. -/
def Selector.Statement (i : Instr) : Prop := ∀ c : Config, c.valid = true → sel c (encode c i) = rowSelector c.xlen i

theorem Selector.inc (a b : Option Int) : Selector.Statement (.inc a b) := fun _ h => sel_compute h (by decide) a b
theorem Selector.dec (a b : Option Int) : Selector.Statement (.dec a b) := fun _ h => sel_compute h (by decide) a b
theorem Selector.add (a b : Option Int) : Selector.Statement (.add a b) := fun _ h => sel_compute h (by decide) a b
theorem Selector.sub (a b : Option Int) : Selector.Statement (.sub a b) := fun _ h => sel_compute h (by decide) a b
theorem Selector.mul (a b : Option Int) : Selector.Statement (.mul a b) := fun _ h => sel_compute h (by decide) a b
theorem Selector.div (a b : Option Int) : Selector.Statement (.div a b) := fun _ h => sel_compute h (by decide) a b
theorem Selector.and (a b : Option Int) : Selector.Statement (.and a b) := fun _ h => sel_compute h (by decide) a b
theorem Selector.or (a b : Option Int) : Selector.Statement (.or a b) := fun _ h => sel_compute h (by decide) a b
theorem Selector.xor (a b : Option Int) : Selector.Statement (.xor a b) := fun _ h => sel_compute h (by decide) a b
theorem Selector.not (a b : Option Int) : Selector.Statement (.not a b) := fun _ h => sel_compute h (by decide) a b
theorem Selector.rshift (a b : Option Int) : Selector.Statement (.rshift a b) := fun _ h => sel_compute h (by decide) a b
theorem Selector.lshift (a b : Option Int) : Selector.Statement (.lshift a b) := fun _ h => sel_compute h (by decide) a b
theorem Selector.cmp (a b : Option Int) : Selector.Statement (.cmp a b) := fun _ h => sel_compute h (by decide) a b
theorem Selector.regRead (addr : Int) : Selector.Statement (.regRead addr) := fun _ _ => by simp [sel, encode, rowSelector]
theorem Selector.regWrite (addr v : Int) : Selector.Statement (.regWrite addr v) := fun _ _ => by
  simp [sel, encode, rowSelector]
theorem Selector.flagSet (name : Option (BitVec 8)) (st : Bool) : Selector.Statement (.flagSet name st) := fun _ _ => by
  simp [sel, encode, rowSelector]
theorem Selector.flagGet (name : Option (BitVec 8)) : Selector.Statement (.flagGet name) := fun _ _ => by
  simp [sel, encode, rowSelector]

end Sys2Proof.Laws
end

