-- ==== Sys2Proof/Tests/Slice0.lean ====
section
/-!
SUPPORT. Small tests. Expected results are those of spec/95_test_vectors.md, of the examples in the rules, or of a selector word and its
fields written out from spec/30_encoding.md. Then, for every statement with hypotheses, a state and operands that meet them.
-/

namespace Sys2Proof.Tests

open Sys2Proof Sys2Proof.Machine

/-- The answer of a step. -/
def answerOf : Host.Outcome State Fault Refusal → Option Answer
  | .next s => s.answer
  | _ => none

/-- The block after a step. -/
def blockOf : Host.Outcome State Fault Refusal → Option Block
  | .next s => s.block
  | _ => none

/-- The refusal of a step. -/
def refusalOf : Host.Outcome State Fault Refusal → Option Refusal
  | .refused r => some r
  | _ => none

/-- A block with `n` general cells, a status value and the written general cells, about to be given one line. -/
def given (n : Nat) (sr : Option Int) (regs : Memory) (l : Line) : State :=
  { State.reset with
    block := some { n := n, srWritten := sr.isSome, sr := sr.getD 0, regs := regs }, inputs := [l.input Config.default] }

/-- A fresh block of two general cells, given one line. -/
def fresh2 (l : Line) : State := given 2 none [] l

/-- The answer to one line on a fresh block. -/
def reply (l : Line) : Option Answer := answerOf (step (fresh2 l))

/-- A value answered without a diagnostic. -/
def value (v : Int) : Option Answer := some (.ok (some v) false)

/-! ## Decoding: the words of R75, R76 and section 2.9, one for each constructor -/

theorem test_decode_inc : decode Config.default { cmd := 1, opcode := 0, arg1Present := true, arg1 := 0x7FFFFFFF } =
    .instr (.inc (some 2147483647) none) := by decide
theorem test_decode_dec : decode Config.default { cmd := 1, opcode := 1, arg1Present := true, arg1 := 3 } =
    .instr (.dec (some 3) none) := by decide
theorem test_decode_add : decode Config.default
    { cmd := 1, opcode := 2, arg1Present := true, arg1 := 3, arg2Present := true, arg2 := 4 } =
    .instr (.add (some 3) (some 4)) := by decide
theorem test_decode_sub : decode Config.default
    { cmd := 1, opcode := 3, arg1Present := true, arg1 := 0x80000000, arg2Present := true, arg2 := 1 } =
    .instr (.sub (some (-2147483648)) (some 1)) := by decide
theorem test_decode_mul : decode Config.default
    { cmd := 1, opcode := 4, arg1Present := true, arg1 := 0xFFFFFFFD, arg2Present := true, arg2 := 5 } =
    .instr (.mul (some (-3)) (some 5)) := by decide
theorem test_decode_div : decode Config.default
    { cmd := 1, opcode := 5, arg1Present := true, arg1 := 5, arg2Present := true, arg2 := 0 } =
    .instr (.div (some 5) (some 0)) := by decide
theorem test_decode_and : decodeTableWord 40 0x100000006 = some (.and none none) := by decide
theorem test_decode_or : decodeTableWord 40 0x100000007 = some (.or none none) := by decide
theorem test_decode_xor : decodeTableWord 40 0x100000008 = some (.xor none none) := by decide
theorem test_decode_not : decode Config.default { cmd := 1, opcode := 9, arg1Present := true, arg1 := 5, arg2 := 77 } =
    .instr (.not (some 5) none) := by decide
theorem test_decode_rshift : decodeTableWord 40 0x10000000A = some (.rshift none none) := by decide
theorem test_decode_lshift : decodeTableWord 40 0x10000000B = some (.lshift none none) := by decide
theorem test_decode_cmp : decode Config.default
    { cmd := 1, opcode := 0xC, arg1Present := true, arg1 := 2, arg2Present := true, arg2 := 7 } =
    .instr (.cmp (some 2) (some 7)) := by decide
theorem test_decode_regRead : decode Config.default { cmd := 2, opcode := 9, addr := 1 } = .instr (.regRead 1) := by decide
theorem test_decode_regWrite : decode Config.default { cmd := 3, addr := 1, wdata := 0xFFFFFFF9 } =
    .instr (.regWrite 1 (-7)) := by decide
theorem test_decode_flagSet : decode Config.default { cmd := 4, fnamePresent := true, fname := 0x5A, fstate := true } =
    .instr (.flagSet (some 0x5A) true) := by decide
theorem test_decode_flagGet : decode Config.default { cmd := 5, fnamePresent := false, fname := 0x4E } =
    .instr (.flagGet none) := by decide
theorem test_decode_unknown : decode Config.default { cmd := 1, opcode := 0xFFFFFFFF, arg1Present := true, arg1 := 1 } =
    .unknownOpCode (-1) := by decide
theorem test_decode_reserved : decode Config.default { cmd := 7 } = .reserved 7 := by decide

/-! ## Well-formedness refuses what the wires cannot carry -/

theorem test_wf_arg1 : (Instr.inc (some 2147483648) none).wf Config.default = false := by decide
theorem test_wf_arg2 : (Instr.add (some 1) (some (-2147483649))).wf Config.default = false := by decide
theorem test_wf_every_operation : ∀ entry ∈ catalogue, (entry (some 2147483648) none).wf Config.default = false ∧
    (entry (some 0) (some (-2147483649))).wf Config.default = false := by decide
theorem test_wf_addr_read : (Instr.regRead 4294967295).wf Config.default = false := by decide
theorem test_wf_addr_write : (Instr.regWrite 2147483648 0).wf Config.default = false := by decide
theorem test_wf_wdata : (Instr.regWrite 0 2147483648).wf Config.default = false := by decide
theorem test_wf_absent : (Instr.inc none none).wf Config.default = true := by decide
theorem test_valid_width : ({ xlen := 24 } : Config).valid = false ∧ ({ xlen := 4 } : Config).valid = false := by decide
theorem test_valid_flags : ({ flagCBit := 0 } : Config).valid = false ∧ ({ flagNBit := 32 } : Config).valid = false := by decide
theorem test_valid_other_width : ({ xlen := 64, flagZBit := 63 } : Config).valid = true := by decide

/-! ## Operations (sections 2.3 to 2.6) -/

theorem test_inc_wraps : reply (.command (.inc (some 2147483647) none)) = value (-2147483648) := by decide
theorem test_inc_misplaced : reply (.compute 0 none (some 7)) = some (.fault .nullArgument) := by decide
theorem test_dec_wraps : reply (.command (.dec (some (-2147483648)) none)) = value 2147483647 := by decide
theorem test_not : reply (.command (.not (some 5) none)) = value (-6) := by decide
theorem test_not_arity : reply (.compute 9 (some 5) (some 0)) = some (.fault .arityMismatch) := by decide
theorem test_add : reply (.command (.add (some 3) (some 4))) = value 7 := by decide
theorem test_add_wraps : reply (.command (.add (some 2147483647) (some 1))) = value (-2147483648) := by decide
theorem test_sub_order : reply (.command (.sub (some 2) (some 7))) = value (-5) := by decide
theorem test_sub_wraps : reply (.command (.sub (some (-2147483648)) (some 1))) = value 2147483647 := by decide
theorem test_mul_wraps : reply (.command (.mul (some 46341) (some 46341))) = value (-2147479015) := by decide
theorem test_mul_sign : reply (.command (.mul (some (-3)) (some 5))) = value (-15) := by decide
theorem test_div_truncates : reply (.command (.div (some (-7)) (some 2))) = value (-3) := by decide
theorem test_div_overflow : reply (.command (.div (some (-2147483648)) (some (-1)))) = value (-2147483648) := by decide
theorem test_div_zero : reply (.command (.div (some 0) (some 0))) = some (.fault .divisionByZero) := by decide
theorem test_div_count_first : reply (.compute 5 (some 5) none) = some (.fault .arityMismatch) := by decide
theorem test_and_negative : reply (.command (.and (some (-4)) (some 7))) = value 4 := by decide
theorem test_or_negative : reply (.command (.or (some (-8)) (some 3))) = value (-5) := by decide
theorem test_xor_not : reply (.command (.xor (some 5) (some (-1)))) = value (-6) := by decide
theorem test_rshift_floor : reply (.command (.rshift (some (-7)) (some 1))) = value (-4) := by decide
theorem test_rshift_negative_distance : reply (.command (.rshift (some (-8)) (some (-1)))) = value (-1) := by decide
theorem test_lshift_recorded : reply (.command (.lshift (some 16) (some 2))) = value 4 := by decide
theorem test_lshift_fixed : lshiftValue { lshiftFixed := true } 3 (-1) = -2147483648 := by decide
theorem test_unknown_low_bits : reply (.compute 16 (some 1) none) = some (.fault .unknownOpCode) := by decide

/-! ## CMP (section 2.7) -/

theorem test_cmp_exact : blockOf (step (given 0 none [] (.command (.cmp (some (-2147483648)) (some 1))))) =
    some { n := 0, srWritten := true, sr := 4, regs := [] } := by decide
theorem test_cmp_keeps_bits : blockOf (step (given 1 (some 0xFF) [(1, 9)] (.command (.cmp (some 1) (some 1))))) =
    some { n := 1, srWritten := true, sr := 0xF9, regs := [(1, 9)] } := by decide
theorem test_cmp_wrapped : cmpFlag (cmpDiff { cmpWrap := true } (-2147483648) 1) = .carry := by decide

/-! ## Register file and flags (section 2.8) -/

theorem test_read_uninitialized : reply (.command (.regRead 1)) = some (.fault .uninitialized) := by decide
theorem test_read_out_of_bounds : reply (.command (.regRead (-1))) = some (.fault .outOfBounds) := by decide
theorem test_write_zero_is_written : blockOf (step (fresh2 (.command (.regWrite 2 0)))) =
    some { n := 2, srWritten := false, sr := 0, regs := [(2, 0)] } := by decide
theorem test_write_status : answerOf (step (given 0 none [] (.command (.regWrite 0 5)))) = some (.ok none true) := by decide
theorem test_setf : blockOf (step (given 1 (some (-1)) [] (.setf (some ['C']) false))) =
    some { n := 1, srWritten := true, sr := -3, regs := [] } := by decide
theorem test_setf_lower_case : reply (.setf (some ['z']) true) = some (.fault .invalidFlagName) := by decide
theorem test_setf_null : reply (.setf none true) = some (.fault .nullArgument) := by decide
theorem test_getf : answerOf (step (given 0 (some 5) [] (.getf (some ['N'])))) = value 1 := by decide
theorem test_getf_fresh : reply (.getf (some ['Z'])) = value 0 := by decide
theorem test_getf_fresh_fault :
    answerOf (exec (.flagGet (some 0x5A)) { State.reset with cfg := { flagGetFresh := .fault } }) =
      some (.fault .uninitialized) := by decide
theorem test_getf_long_name : reply (.getf (some ['Z', 'C'])) = some (.fault .invalidFlagName) := by decide

/-! ## Construction, reset, the ports -/

theorem test_construct_negative : step (given 1 none [] (.reset (-1))) =
    .next { State.reset with block := none, answer := some (.fault .invalidConstruction) } := rfl
theorem test_construct_zero : blockOf (step (given 1 (some 7) [(1, 4)] (.reset 0))) =
    some { n := 0, srWritten := false, sr := 0, regs := [] } := by decide
theorem test_construct_too_large :
    refusalOf (step (fresh2 (.reset 2147483648))) = some (.countNotRepresentable 2147483648) := by decide
theorem test_rst : step { given 1 (some 7) [(1, 4)] (.reset 0) with inputs := [.present true { cmd := 2, addr := 1 }] } =
    .next { State.reset with block := some (Block.fresh 1) } := rfl
theorem test_reserved : refusalOf (step { State.reset with inputs := [.present false { cmd := 6 }] }) =
    some (.reservedSelect 6) := by decide
theorem test_rst_beside_reserved :
    step { given 1 (some 7) [(1, 4)] (.reset 0) with inputs := [.present true { cmd := 6 }] } =
      .next { State.reset with block := some (Block.fresh 1) } := rfl
theorem test_response_codes : [FaultKind.invalidConstruction, .outOfBounds, .uninitialized, .unknownOpCode, .arityMismatch,
    .divisionByZero, .invalidFlagName, .nullArgument].map (fun k => ((Answer.fault k).toPort Config.default).status) =
    [1, 2, 3, 4, 5, 6, 7, 8] := by decide
theorem test_response_fault : (Answer.fault .nullArgument).toPort Config.default =
    { status := 8, resultValid := false, result := none, diag := false } := by decide
theorem test_response_value : (Answer.ok (some (-6)) false).toPort Config.default =
    { status := 0, resultValid := true, result := some 0xFFFFFFFA, diag := false } := by decide
theorem test_fetch_word : answerOf (step (State.reset.withFetchWord 40 0x100000005)) = some (.fault .arityMismatch) := by decide

/-! ## Witnesses: the hypotheses of the statements can be met -/

theorem witness_DecodeEncode : Config.default.valid = true ∧ (Instr.regWrite (-2147483648) 2147483647).wf Config.default = true := by
  decide
theorem witness_RowSelected : (⟨"CMP", 0x10000000C, 0x7FFFFFFFF⟩ : TableRow) ∈ opcodeTable ∧
    sel Config.default { cmd := 1, opcode := 12 } &&& 0x7FFFFFFFF = 0x10000000C := by decide
theorem witness_DecodeTotal : ofWires 32 12 = 12 ∧ ofWires 32 13 = 13 ∧ ofWires 32 0xFFFFFFFF = -1 ∧ (6#3).toNat = 6 := by decide
theorem witness_UnreadWiresIgnored :
    decode Config.default { cmd := 1, opcode := 0, arg1Present := true, arg1 := 1, arg2 := 5 } =
      decode Config.default { cmd := 1, opcode := 0, arg1Present := true, arg1 := 1, arg2 := 6 } := by decide
theorem witness_DecodedFits : decode Config.default { cmd := 3, wdata := 0x80000000 } = .instr (.regWrite 0 (-2147483648)) := by
  decide
theorem witness_StepRunsDecoded : (fresh2 (.command (.inc (some 1) none))).inputs =
    [.present false { cmd := 1, opcode := 0, arg1Present := true, arg1 := 1 }] := by decide
theorem witness_IdleDoesNothing : State.reset.inputs = [] ∧ ({ } : Port).cmd = 0 := by decide
theorem witness_ReservedSelectRefused : ({ cmd := 7 } : Port).cmd = 6 ∨ ({ cmd := 7 } : Port).cmd = 7 := by decide
theorem witness_UnknownOpCodeFaults : (fresh2 (.compute 13 none none)).block = some (Block.fresh 2) ∧
    (fresh2 (.compute 13 none none)).inputs = [.present false { cmd := 1, opcode := 13 }] ∧ 12 < ofWires 32 13 := by decide

/-- The premises of the contracts: a state that holds a block, valid parameters, operands of the width at its two ends. -/
theorem witness_contracts : State.reset.cfg.valid = true ∧ State.reset.block = some (Block.fresh 3) ∧
    inRange State.reset.cfg.xlen (-2147483648) = true ∧ inRange State.reset.cfg.xlen 2147483647 = true := by decide
theorem witness_IncRule : State.reset.cfg.valid = true ∧ inRange State.reset.cfg.xlen 2147483647 = true := by decide
theorem witness_DecRule : State.reset.cfg.valid = true ∧ inRange State.reset.cfg.xlen (-2147483648) = true := by decide
theorem witness_NotRule : State.reset.cfg.valid = true ∧ inRange State.reset.cfg.xlen (-1) = true := by decide
theorem witness_AddRule : State.reset.cfg.valid = true ∧ inRange State.reset.cfg.xlen 3 = true := by decide
theorem witness_SubRule : State.reset.cfg.valid = true ∧ inRange State.reset.cfg.xlen (-5) = true := by decide
theorem witness_MulRule : State.reset.cfg.valid = true ∧ inRange State.reset.cfg.xlen 46341 = true := by decide
theorem witness_DivRule : State.reset.cfg.valid = true ∧ inRange State.reset.cfg.xlen (-7) = true ∧ (2 : Int) ≠ 0 := by decide
theorem witness_DivRelation : inRange State.reset.cfg.xlen (-2147483648) = true ∧ (2 : Int) ≠ 0 ∧
    ¬ ((-2147483648 : Int) = minInt State.reset.cfg.xlen ∧ (2 : Int) = -1) := by decide
theorem witness_WrapIsSilent : inRange State.reset.cfg.xlen 2147483647 = true ∧ inRange State.reset.cfg.xlen (2147483647 + 1) = false := by
  decide
theorem witness_AndRule : State.reset.cfg.valid = true ∧ inRange State.reset.cfg.xlen (-4) = true := by decide
theorem witness_OrRule : State.reset.cfg.valid = true ∧ inRange State.reset.cfg.xlen (-8) = true := by decide
theorem witness_XorRule : State.reset.cfg.valid = true ∧ inRange State.reset.cfg.xlen 77 = true := by decide
theorem witness_RshiftRule : Config.default.shamtTable = [] ∧ shamt Config.default (-1) = 31 ∧ shamt Config.default 32 = 0 := by decide
theorem witness_LshiftRule : State.reset.cfg.lshiftFixed = false ∧ ({ lshiftFixed := true } : Config).valid = true := by decide
theorem witness_LshiftFixedRule : ({ lshiftFixed := true } : Config).valid = true ∧
    ({ lshiftFixed := true } : Config).lshiftFixed = true := by decide
theorem witness_CmpRule : State.reset.cfg.cmpWrap = false ∧ ({ cmpWrap := true } : Config).valid = true := by decide
theorem witness_CmpOutcome : State.reset.cfg.valid = true ∧ State.reset.cfg.cmpWrap = false ∧
    inRange State.reset.cfg.xlen (-2147483648) = true := by decide
theorem witness_CmpWrapAgainstExact : inRange 32 (-2147483648) = true ∧ inRange 32 1 = true ∧ inRange 32 (-2147483648 - 1) = false ∧
    inRange 32 (5 - 7) = true := by decide

/-- Two general cells, the second written: the addresses -1, 0, 1, 2 and 3 fall each under one clause of R101. -/
theorem witness_RegReadRule :
    let b : Block := { n := 2, srWritten := false, sr := 0, regs := [(2, 6)] }
    (-1 < (0 : Int)) ∧ b.readCell 0 = none ∧ b.readCell 1 = none ∧ b.readCell 2 = some 6 ∧ (b.n : Int) < 3 ∧
      b.wf Config.default = true := by decide
theorem witness_RegWriteRule : (0 : Int) ≤ 3 ∧ (3 : Int) ≤ ((Block.fresh 3).n : Int) ∧ ((Block.fresh 3).n : Int) < 4 ∧
    inRange State.reset.cfg.xlen (-7) = true := by decide
theorem witness_DiagnosticOnlyAtZero : (Instr.regWrite 0 5).wf State.reset.cfg = true ∧
    answerOf (exec (.regWrite 0 5) State.reset) = some (.ok none true) := by decide
theorem witness_ReadAfterWrite : ∀ i ∈ [Instr.regWrite 2 9, .inc (some 1) none, .flagSet (some 0x5A) true, .regRead 1],
    writesCell State.reset.cfg 1 i = false := by decide
theorem witness_ReadAfterWrite_run : answerOf (execAll [.regWrite 1 42, .regWrite 2 9, .regRead 1] State.reset) = value 42 := by decide
theorem witness_ReadAfterWrite_status : ∀ i ∈ [Instr.regWrite 2 9, .inc (some 1) none, .flagGet (some 0x5A)],
    writesCell State.reset.cfg 0 i = false := by decide
theorem witness_FlagNameCheck : adapterName (some ['Z']) = (true, 0x5A#8) ∧ adapterName none = (false, 0#8) ∧
    adapterName (some []) = (true, 0#8) := by decide
theorem witness_FlagSetRule : checkName (some 0x4E) = .ok .negative ∧ flagOfCode 0x6E = none := by decide
theorem witness_FlagGetRule : checkName (some 0x43) = .ok .carry ∧ flagOfCode 0x63 = none ∧ (Block.fresh 3).srWritten = false ∧
    State.reset.cfg.flagGetFresh = .zero ∧ ({ flagGetFresh := .fault } : Config).valid = true := by decide
theorem witness_FreshStatus : State.reset.wf = true ∧ State.reset.block = some (Block.fresh 3) ∧ (Block.fresh 3).srWritten = false := by
  decide
theorem witness_FlagSources : (Instr.cmp (some 5) (some 5)).wf State.reset.cfg = true ∧
    blockOf (exec (.cmp (some 5) (some 5)) State.reset) = some { n := 3, srWritten := true, sr := 1, regs := [] } := by decide
theorem witness_FaultChangesNothing : answerOf (exec (.div (some 1) (some 0)) State.reset) = some (.fault .divisionByZero) := by decide
theorem witness_FaultChangesNothing_step : reply (.compute 13 none none) = some (.fault .unknownOpCode) ∧
    answerOf (step { fresh2 (.reset (-1)) with block := none }) = some (.fault .invalidConstruction) ∧
    ∀ n rest, (fresh2 (.compute 13 none none)).inputs ≠ .construct n :: rest :=
  ⟨by decide, by decide, fun _ _ h => by cases h⟩
theorem witness_AfterFault_step : answerOf (step (given 2 (some 7) [(1, 4)] (.compute (-1) none none))) = some (.fault .unknownOpCode) ∧
    answerOf (step { fresh2 (.reset (-1)) with block := none }) = some (.fault .invalidConstruction) ∧
    ∀ n rest, (given 2 (some 7) [(1, 4)] (.compute (-1) none none)).inputs ≠ .construct n :: rest :=
  ⟨by decide, by decide, fun _ _ h => by cases h⟩
theorem witness_AfterFault : answerOf (exec (.regRead 9) State.reset) = some (.fault .outOfBounds) := by decide
theorem witness_RepeatChangesNothing : ∃ s', exec (.flagSet (some 0x5A) true) State.reset = .next s' := ⟨_, rfl⟩
theorem witness_OnlyWritersChangeState : writesNothing (.flagGet (some 0x5A)) = true ∧
    ∃ s', exec (.flagGet (some 0x5A)) State.reset = .next s' := ⟨rfl, _, rfl⟩
theorem witness_OtherCellsKept : writesCell State.reset.cfg 1 (.regWrite 2 5) = false ∧
    ∃ s' b', exec (.regWrite 2 5) State.reset = .next s' ∧ s'.block = some b' := ⟨by decide, _, _, rfl, rfl⟩
theorem witness_WrittenStaysWritten :
    (Block.readCell { n := 2, srWritten := false, sr := 0, regs := [(2, 6)] } 2).isSome = true ∧
      answerOf (step (given 2 none [(2, 6)] (.command (.regWrite 1 0)))) = some (.ok none false) := by decide
theorem witness_ValueOperationsArePure : returnsValue (.div (some 7) (some 2)) = true ∧ State.reset.block.isSome = true ∧
    (given 2 (some 7) [(1, 1)] (.reset 0)).block.isSome = true ∧ (given 2 (some 7) [(1, 1)] (.reset 0)).cfg = State.reset.cfg := by decide
theorem witness_ParametersFixed : ∃ s', step (fresh2 (.command (.regWrite 1 5))) = .next s' := ⟨_, rfl⟩
theorem witness_ConstructRule : (fresh2 (.reset 3)).cfg.valid = true ∧ (fresh2 (.reset 3)).inputs = [.construct 3] ∧
    (-1 : Int) < 0 ∧ (0 : Int) ≤ (Config.default.maxCount : Int) ∧ (2147483647 : Int) ≤ (Config.default.maxCount : Int) ∧ (Config.default.maxCount : Int) < 2147483648 := by decide
theorem witness_ResetInputRule : ∃ (s : State) (b : Block) (p : Port), s.inputs = [.present true p] ∧ s.block = some b ∧ (b.readCell 1).isSome = true :=
  ⟨{ given 1 (some 7) [(1, 4)] (.reset 0) with inputs := [.present true { cmd := 2, addr := 1 }] }, _, _, rfl, rfl, rfl⟩
theorem witness_NoBlockRefused : ({ State.reset with block := none } : State).block = none := rfl
theorem witness_StepKeepsWellFormed : (fresh2 (.command (.regWrite 2 5))).wf = true ∧
    ∃ s', step (fresh2 (.command (.regWrite 2 5))) = .next s' := ⟨by decide, _, rfl⟩
theorem witness_ConformingRunIsSafe : (fresh2 (.compute 13 none none)).wf = true ∧ (fresh2 (.compute 13 none none)).block.isSome = true ∧
    ∀ inp ∈ (fresh2 (.compute 13 none none)).inputs, conforming (fresh2 (.compute 13 none none)).cfg inp = true := by decide
theorem witness_RefusedExactly : refusalOf (step { fresh2 (.command (.regRead 0)) with block := none }) = some .noBlock := by decide

end Sys2Proof.Tests
end

/-!
PROOFS. The scope of the model (spec/00_scope.md): what a step presents to the operations, that decoding yields `XLEN`-bit operands
only, and the well-formedness every step keeps.
-/

namespace Sys2Proof.Proofs

open Sys2Proof Sys2Proof.Machine Sys2Proof.Laws

/-! ## What a step hands on, by the input at the head of the list -/

theorem step_of_nil {s : State} (h : s.inputs = []) : step s = .next (s.take []) := by
  rw [step, h]

theorem step_of_cons {s : State} {inp : Input} {rest : List Input} (h : s.inputs = inp :: rest) :
    step s = accept inp (s.take rest) := by
  rw [step, h]

theorem accept_construct (n : Int) (s : State) : accept (.construct n) s = construct n s := rfl

theorem accept_reset (p : Port) (s : State) : accept (.present true p) s = assertReset s := rfl

theorem accept_command (p : Port) (s : State) : accept (.present false p) s = perform (decode s.cfg p) s := rfl

/-- Settles O7: a command is taken off the list and performed, and what is performed of an instruction is its `exec`. -/
theorem stepRunsDecoded : Obligations.StepRunsDecoded := by
  intro s p rest i hs hi
  calc step s = perform (decode s.cfg p) (s.take rest) := by rw [step_of_cons hs, accept_command, take_cfg]
    _ = exec i (s.take rest) := by rw [hi, perform]

/-! ## Decoded operands -/

/-- An entry of the catalogue is well formed exactly when both its operands fit. -/
theorem catalogue_wf (c : Config) (a b : Option Int) :
    ∀ f ∈ catalogue, (f a b).wf c = (operandFits c a && operandFits c b) := by
  simp [catalogue, Instr.wf]

/-- The lookup of a COMPUTE adds no operand of its own (spec/30_encoding.md R81). -/
theorem decodeCompute_wf {c : Config} {code : Int} {a b : Option Int} {i : Instr} (ha : operandFits c a = true)
    (hb : operandFits c b = true) (h : decodeCompute code a b = .instr i) : i.wf c = true := by
  obtain ⟨k, f, -, -, hf, e⟩ | ⟨-, e⟩ := decodeCompute_cases code a b
  · cases e.symm.trans h
    rw [catalogue_wf c a b f (List.mem_of_getElem? hf), ha, hb, Bool.and_self]
  · cases e.symm.trans h

/-- Every integer operand comes from `ofWires`, whose value lies in `MIN..MAX` (spec/30_encoding.md R78). -/
theorem decode_wf {c : Config} (hx : 0 < c.xlen) {p : Port} {i : Instr} (h : decode c p = .instr i) : i.wf c = true := by
  unfold decode at h
  split at h
  · cases h
  · exact decodeCompute_wf (operandOf_fits hx _ _) (operandOf_fits hx _ _) h
  · cases h
    exact ofWires_inRange hx _
  · cases h
    rw [Instr.wf, ofWires_inRange hx, ofWires_inRange hx, Bool.and_self]
  · cases h
    rfl
  · cases h
    rfl
  · cases h

/-- Settles O6: a valid configuration has wires, and what they carry fits. -/
theorem decodedFits : Obligations.DecodedFits := fun _ _ _ hc h => decode_wf (valid_xlen_pos hc) h

/-! ## Well-formedness of the state -/

theorem State_wf_iff {s : State} : s.wf = true ↔ s.cfg.valid = true ∧ ∀ b, s.block = some b → b.wf s.cfg = true := by
  rw [State.wf, Bool.and_eq_true]
  cases s.block <;> simp

/-- Well-formedness speaks of the parameters and the block alone, so neither port matters. -/
@[simp] theorem wf_answer (s : State) (a : Option Answer) : { s with answer := a }.wf = s.wf := rfl

@[simp] theorem wf_take (s : State) (rest : List Input) : (s.take rest).wf = s.wf := rfl

theorem wf_noBlock {s : State} (h : s.wf = true) : { s with block := none }.wf = true :=
  State_wf_iff.2 ⟨(State_wf_iff.1 h).1, nofun⟩

theorem wf_setBlock {s : State} {b : Block} (h : s.wf = true) (hb : b.wf s.cfg = true) : (s.setBlock b).wf = true := by
  refine State_wf_iff.2 ⟨(State_wf_iff.1 h).1, fun b' hb' => ?_⟩
  cases hb'
  exact hb

/-! ## Every operation of a step keeps the state well formed -/

/-- A command answers only, or does one write of a value of the width to a cell the file has (`exec_effect`). -/
theorem exec_wf {i : Instr} {s s' : State} (hs : s.wf = true) (h : exec i s = .next s') : s'.wf = true := by
  obtain ⟨hc, hblock⟩ := State_wf_iff.1 hs
  obtain ⟨b, hb, he⟩ := exec_effect h
  cases he with
  | faulted k => exact hs
  | answered v _ => exact hs
  | wrote hw =>
    rw [wf_answer]
    exact wf_setBlock hs (writeCell_wf (hblock b hb) (writes_le hw) (writes_inRange (valid_xlen_pos hc) hw))

theorem computeUnknown_wf {s s' : State} (hs : s.wf = true) (h : computeUnknown s = .next s') : s'.wf = true := by
  obtain ⟨-, -, rfl⟩ := computeUnknown_next h
  exact hs

theorem perform_wf {d : Decoded} {s s' : State} (hs : s.wf = true) (h : perform d s = .next s') : s'.wf = true := by
  cases d with
  | idle => cases h; exact hs
  | instr i => exact exec_wf hs h
  | unknownOpCode code => exact computeUnknown_wf hs h
  | reserved cmd => cases h

/-- A construction leaves no block, or a fresh one of a representable count (spec/40_regfile_commands.md R100). -/
theorem construct_wf {n : Int} {s s' : State} (hs : s.wf = true) (h : construct n s = .next s') : s'.wf = true := by
  obtain ⟨-, rfl⟩ | ⟨hn0, hn, rfl⟩ := construct_next h
  · exact wf_noBlock hs
  · exact wf_setBlock hs (fresh_wf (by omega))

/-- The reset input keeps the register count, which was representable (spec/70_reset_and_hazards.md R211). -/
theorem assertReset_wf {s s' : State} (hs : s.wf = true) (h : assertReset s = .next s') : s'.wf = true := by
  obtain ⟨b, hb, rfl⟩ := assertReset_next h
  obtain ⟨hn, -⟩ := Block_wf_iff.1 ((State_wf_iff.1 hs).2 b hb)
  exact wf_setBlock hs (fresh_wf hn)

theorem accept_wf {inp : Input} {s s' : State} (hs : s.wf = true) (h : accept inp s = .next s') : s'.wf = true := by
  cases inp with
  | construct n => exact construct_wf hs h
  | present rst p =>
    cases rst with
    | false => exact perform_wf hs h
    | true => exact assertReset_wf hs h

theorem step_wf {s s' : State} (hs : s.wf = true) (h : step s = .next s') : s'.wf = true := by
  cases hi : s.inputs with
  | nil =>
    cases (step_of_nil hi).symm.trans h
    exact hs
  | cons inp rest => exact accept_wf ((wf_take s rest).trans hs) ((step_of_cons hi).symm.trans h)

/-- Settles O52: `step_wf`, which asks of the state before the step nothing but well-formedness. -/
theorem stepKeepsWellFormed : Obligations.StepKeepsWellFormed := fun _ _ => step_wf

/-! ## The state after reset -/

/-- Settles O50: its block is a fresh one, of which no cell has been written. -/
theorem resetState : Obligations.ResetState :=
  ⟨rfl, rfl, rfl, Block.fresh resetCount, rfl, fresh_srWritten _, fresh_sr _, fun a _ => fresh_readCell resetCount a⟩

end Sys2Proof.Proofs

/-!
PROOFS. The state of the block (spec/10_state.md): which command writes which cell, what can change a flag, the status register
before its first write, and what no step changes.
-/

namespace Sys2Proof.Proofs

open Sys2Proof Sys2Proof.Machine Sys2Proof.Laws

/-! ## Zero, the value of a status register never written -/

theorem getBit_zero (xlen i : Nat) : getBit xlen 0 i = false := by simp [getBit, toBits]

theorem getFlag_zero (c : Config) (f : Flag) : getFlag c 0 f = false := getBit_zero _ _

theorem sr_zero_of_unwritten {c : Config} {b : Block} (hwf : b.wf c = true) (hw : b.srWritten = false) : b.sr = 0 := by
  obtain ⟨-, -, hsr, -⟩ := Block_wf_iff.1 hwf
  exact hsr.resolve_left (by simp [hw])

theorem readCell_zero_of_unwritten {b : Block} (hw : b.srWritten = false) : b.readCell 0 = none := by
  simp [Block.readCell, hw]

/-- On the value 0 a write of one bit leaves that bit alone. -/
theorem getBit_putFlag_zero {c : Config} (f : Flag) (st : Bool) {i : Nat} (hi : i < c.xlen) :
    getBit c.xlen (putFlag c 0 f st) i = (decide (i = c.flagBit f) && st) := by
  rw [putFlag, getBit_putBit _ _ _ _ hi, getBit_zero]
  by_cases h : i = c.flagBit f <;> simp [h]

/-- On the value 0 a compare leaves the bit of its one flag alone (spec/45_alu_compare.md R170). -/
theorem getBit_cmpStatus_zero {c : Config} (hc : c.valid = true) (x y : Int) {i : Nat} (hi : i < c.xlen) :
    getBit c.xlen (cmpStatus c 0 x y) i = decide (i = c.flagBit (cmpFlag (cmpDiff c x y))) := by
  by_cases hflag : ∃ g, i = c.flagBit g
  · obtain ⟨g, rfl⟩ := hflag
    have hinj : c.flagBit g = c.flagBit (cmpFlag (cmpDiff c x y)) ↔ g = cmpFlag (cmpDiff c x y) :=
      ⟨fun h => by_contra fun hne => flagBit_ne hc hne h, congrArg _⟩
    rw [decide_eq_decide.2 hinj]
    exact getFlag_cmpStatus hc 0 x y g
  · rw [not_exists] at hflag
    rw [getBit_cmpStatus_other 0 x y hi hflag, getBit_zero, decide_eq_false (hflag _)]

/-! ## What the commands that name cell 0 answer -/

theorem selectCell_wire_zero (c : Config) (b : Block) : selectCell b (wire c 0) = some 0 := by
  rw [wire, wrap_zero]
  exact selectCell_of_bounds ⟨le_rfl, Int.natCast_nonneg _⟩

section Performed

variable {s : State} {b : Block} (hb : s.block = some b)
include hb

theorem exec_regRead_zero_of_unwritten (h : b.readCell 0 = none) :
    exec (.regRead 0) s = .next (answering s (.fault .uninitialized)) := by
  simp [exec, execRegRead, withBlock_some hb, selectCell_wire_zero, h, raise, answering]

theorem exec_regRead_zero_of_written {v : Int} (h : b.readCell 0 = some v) :
    exec (.regRead 0) s = .next (answering s (.ok (some v) false)) := by
  simp [exec, execRegRead, withBlock_some hb, selectCell_wire_zero, h, answerOk, answering]

theorem exec_regWrite_zero (v : Int) :
    exec (.regWrite 0 v) s = .next (answering (s.setBlock (b.writeCell 0 (wire s.cfg v))) (.ok none true)) := by
  simp [exec, execRegWrite, withBlock_some hb, selectCell_wire_zero, answerOk, answering]

theorem exec_cmp_both (x y : Int) : exec (.cmp (some x) (some y)) s =
    .next (answering (s.setBlock (b.writeCell 0 (cmpStatus s.cfg b.sr (wire s.cfg x) (wire s.cfg y)))) (.ok none false)) := by
  rw [exec, execCmp, computeWith_both hb]; rfl

variable {name : Option (BitVec 8)} {f : Flag} (hname : checkName name = .ok f)
include hname

theorem exec_flagSet_legal (st : Bool) : exec (.flagSet name st) s =
    .next (answering (s.setBlock (b.writeCell 0 (putFlag s.cfg b.sr f st))) (.ok none false)) := by
  simp [exec, execFlagSet, withBlock_some hb, hname, answerOk, answering]

theorem exec_flagGet_uninitialized (hw : b.srWritten = false) (hfresh : s.cfg.flagGetFresh = .fault) :
    exec (.flagGet name) s = .next (answering s (.fault .uninitialized)) := by
  simp [exec, execFlagGet, withBlock_some hb, hname, hw, hfresh, raise, answering]

theorem exec_flagGet_value (h : b.srWritten = true ∨ s.cfg.flagGetFresh = .zero) :
    exec (.flagGet name) s = .next (answering s (.ok (some (if getFlag s.cfg b.sr f then 1 else 0)) false)) := by
  have hno : ¬ (b.srWritten = false ∧ s.cfg.flagGetFresh = .fault) := by
    rintro ⟨hw, hfresh⟩
    simp [hw, hfresh] at h
  simp [exec, execFlagGet, withBlock_some hb, hname, hno, answerOk, answering]

end Performed

/-- Settles O36: the value is 0 by well-formedness, and a flag write of the value 0 leaves the bits it names. -/
theorem freshStatus : Obligations.FreshStatus := by
  intro s b hs hb hw
  obtain ⟨hc, hblock⟩ := State_wf_iff.1 hs
  have hsr : b.sr = 0 := sr_zero_of_unwritten (hblock b hb) hw
  refine ⟨?read, ?getZero, ?getFault, ?set, ?cmp⟩
  case read => exact exec_regRead_zero_of_unwritten hb (readCell_zero_of_unwritten hw)
  case getZero =>
    intro name f hname hfresh
    simp [exec_flagGet_value hb hname (.inr hfresh), hsr, getFlag_zero]
  case getFault => exact fun name f hname hfresh => exec_flagGet_uninitialized hb hname hw hfresh
  case set =>
    intro name f st hname
    refine ⟨_, _, exec_flagSet_legal hb hname st, exec_regRead_zero_of_written rfl (readCell_writeCell_same b 0 _), ?_⟩
    rw [hsr]
    exact fun i hi => getBit_putFlag_zero f st hi
  case cmp =>
    intro x y _ _
    refine ⟨_, _, cmpFlag (cmpDiff s.cfg (wire s.cfg x) (wire s.cfg y)), exec_cmp_both hb x y,
      exec_regRead_zero_of_written rfl (readCell_writeCell_same b 0 _), ?_⟩
    rw [hsr]
    exact fun i hi => getBit_cmpStatus_zero hc _ _ hi

/-! ## What a command changes -/

theorem effect_of_exec {i : Instr} {s s' : State} {b : Block} (hb : s.block = some b) (h : exec i s = .next s') :
    Effect i s b s' := by
  obtain ⟨b', hb', he⟩ := exec_effect h
  cases hb.symm.trans hb'
  exact he

/-- Settles O42: the one effect that changes more than the answer is a write, which only a writing command has. -/
theorem onlyWritersChangeState : Obligations.OnlyWritersChangeState := by
  intro i s s' hi h
  obtain ⟨b, -, he⟩ := exec_effect h
  cases he with
  | faulted k => rfl
  | answered v _ => rfl
  | wrote hw => simp [writes_not_writesNothing hw] at hi

/-- Settles O43: the one cell a command writes is one that `writesCell` names. -/
theorem otherCellsKept : Obligations.OtherCellsKept := by
  intro i s s' b b' a hb h hb' ha
  cases effect_of_exec hb h with
  | faulted k => cases hb.symm.trans hb'; rfl
  | answered v _ => cases hb.symm.trans hb'; rfl
  | wrote hw =>
    cases hb'
    refine readCell_writeCell_other b _ fun hEq => ?_
    subst hEq
    simp [writes_writesCell hw] at ha

/-! ## What can change a flag -/

/-- A write leaves a flag unless its command is one of the flag's three sources (spec/10_state.md R29, R30). -/
theorem writes_keeps_flag {c : Config} {b : Block} {i : Instr} {a : Nat} {v : Int} {d : Bool} {f : Flag}
    (hc : c.valid = true) (hi : i.wf c = true) (hw : Writes c b i a v d)
    (hset : ∀ name st, i = .flagSet name st → checkName name ≠ .ok f) (hcmp : ∀ x y, i ≠ .cmp (some x) (some y))
    (hreg : ∀ w, i ≠ .regWrite 0 w) : getFlag c (b.writeCell a v).sr f = getFlag c b.sr f := by
  cases hw with
  | @reg addr wdata _ h =>
    obtain ⟨haddr, -⟩ := Bool.and_eq_true_iff.1 hi
    have ha : addr = (a : Int) := (wire_of_inRange hc haddr).symm.trans (selectCell_some h).2
    have ha0 : a ≠ 0 := by
      rintro rfl
      exact hreg wdata (by rw [ha]; rfl)
    rw [writeCell_pos_sr b _ ha0]
  | @flag name st g h =>
    have hfg : f ≠ g := by
      rintro rfl
      exact hset name st rfl h
    rw [writeCell_zero_sr, getFlag_putFlag hc, if_neg hfg]
  | cmp x y => exact absurd rfl (hcmp x y)

/-- Settles O37: each source by the write it performs, every other command by `writes_keeps_flag`. -/
theorem flagSources : Obligations.FlagSources := by
  intro i s s' b b' f hc hi hb h hb'
  refine ⟨?set, ?cmp, ?reg, ?other⟩
  case set =>
    rintro name st rfl hname
    cases (exec_flagSet_legal hb hname st).symm.trans h
    cases hb'
    rw [writeCell_zero_sr, getFlag_putFlag hc, if_pos rfl]
  case cmp =>
    rintro x y rfl
    obtain ⟨hx, hy⟩ := Bool.and_eq_true_iff.1 hi
    cases (exec_cmp_both hb x y).symm.trans h
    cases hb'
    rw [writeCell_zero_sr, getFlag_cmpStatus hc, wire_of_inRange hc hx, wire_of_inRange hc hy]
  case reg =>
    rintro v rfl
    cases (exec_regWrite_zero hb v).symm.trans h
    cases hb'
    rw [writeCell_zero_sr]
    exact getBit_wrap _ _ _
  case other =>
    intro hset hcmp hreg
    cases effect_of_exec hb h with
    | faulted k => cases hb.symm.trans hb'; rfl
    | answered v _ => cases hb.symm.trans hb'; rfl
    | wrote hw =>
      cases hb'
      exact writes_keeps_flag hc hi hw hset hcmp hreg

/-! ## What no step changes -/

theorem exec_cfg {i : Instr} {s s' : State} (h : exec i s = .next s') : s'.cfg = s.cfg := by
  obtain ⟨b, -, he⟩ := exec_effect h
  cases he <;> rfl

/-- To the block a command does one write of one cell or nothing. -/
theorem exec_block {i : Instr} {s s' : State} (h : exec i s = .next s') :
    s'.block = s.block ∨ ∃ b a v, s.block = some b ∧ s'.block = some (b.writeCell a v) := by
  obtain ⟨b, hb, he⟩ := exec_effect h
  cases he with
  | faulted k => exact .inl rfl
  | answered v _ => exact .inl rfl
  | wrote hw => exact .inr ⟨b, _, _, hb, rfl⟩

/-- A presentation without the reset input keeps the parameters and does to the block what a command does; IDLE and a code outside
the table do nothing to it (spec/30_encoding.md R71, R81). -/
theorem perform_next {d : Decoded} {s s' : State} (h : perform d s = .next s') :
    s'.cfg = s.cfg ∧ (s'.block = s.block ∨ ∃ b a v, s.block = some b ∧ s'.block = some (b.writeCell a v)) := by
  cases d with
  | idle => cases h; exact ⟨rfl, .inl rfl⟩
  | instr i => exact ⟨exec_cfg h, exec_block h⟩
  | unknownOpCode code =>
    obtain ⟨-, -, rfl⟩ := computeUnknown_next h
    exact ⟨rfl, .inl rfl⟩
  | reserved cmd => cases h

theorem writeCell_keeps_written (b : Block) {a : Nat} (a' : Nat) (v : Int) (h : (b.readCell a).isSome = true) :
    ((b.writeCell a' v).readCell a).isSome = true := by
  by_cases ha : a = a'
  · subst ha
    rw [readCell_writeCell_same, Option.isSome_some]
  · rwa [readCell_writeCell_other b v ha]

/-- Settles O44: what is presented without the reset input does one write at most, and no write unwrites a cell. -/
theorem writtenStaysWritten : Obligations.WrittenStaysWritten := by
  intro s s' b p rest a hin hb hw h
  rw [step_of_cons hin, accept_command] at h
  obtain ⟨-, hkept | ⟨b₀, a', v, hb₀, hwrote⟩⟩ := perform_next h
  · exact ⟨b, hkept.trans hb, hw⟩
  · cases hb.symm.trans hb₀
    exact ⟨_, hwrote, writeCell_keeps_written b a' v hw⟩

theorem construct_cfg {n : Int} {s s' : State} (h : construct n s = .next s') : s'.cfg = s.cfg := by
  obtain ⟨-, rfl⟩ | ⟨-, -, rfl⟩ := construct_next h <;> rfl

theorem accept_cfg {inp : Input} {s s' : State} (h : accept inp s = .next s') : s'.cfg = s.cfg := by
  cases inp with
  | construct n => exact construct_cfg h
  | present rst p =>
    cases rst with
    | false => exact (perform_next h).1
    | true =>
      obtain ⟨-, -, rfl⟩ := assertReset_next h
      rfl

/-- Neither a command nor the reset input makes a block appear or go, nor changes its register count (spec/10_state.md R20). -/
theorem accept_present_count {rst : Bool} {p : Port} {s s' : State} (h : accept (.present rst p) s = .next s') :
    s'.block.map Block.n = s.block.map Block.n := by
  cases rst with
  | false =>
    obtain ⟨-, hkept | ⟨b, a, v, hb, hwrote⟩⟩ := perform_next h
    · rw [hkept]
    · rw [hb, hwrote, Option.map_some, Option.map_some, writeCell_n]
  | true =>
    obtain ⟨b, hb, rfl⟩ := assertReset_next h
    rw [hb]
    rfl

/-- Settles O46: by the input at the head of the list. -/
theorem parametersFixed : Obligations.ParametersFixed := by
  intro s s' h
  cases hin : s.inputs with
  | nil =>
    cases (step_of_nil hin).symm.trans h
    exact ⟨rfl, fun _ => rfl⟩
  | cons inp rest =>
    rw [step_of_cons hin] at h
    refine ⟨(accept_cfg h).trans (take_cfg s rest), fun hno => ?_⟩
    cases inp with
    | construct n => exact absurd rfl (hno n rest)
    | present rst p => exact (accept_present_count h).trans (by rw [take_block])

/-- Settles O51: the default parameters are in their space, and the block is a fresh one of a representable count. -/
theorem resetWellFormed : Obligations.ResetWellFormed := by
  have hvalid : Config.default.valid = true := by decide
  have hcount : resetCount ≤ Config.default.maxCount := by decide
  refine State_wf_iff.2 ⟨hvalid, fun b hb => ?_⟩
  cases hb
  exact fresh_wf hcount

end Sys2Proof.Proofs

/-!
PROOFS. The register file as memory (spec/20_memory.md): what a writing command leaves, that it leaves the same when repeated, and
that a read answers the last write through any run of other commands.
-/

namespace Sys2Proof.Proofs

open Sys2Proof Sys2Proof.Machine Sys2Proof.Laws

/-! ## Performing a write -/

/-- A command that has a write to do does it: the converse of the third case of `Effect`. -/
theorem exec_of_writes {s : State} {b : Block} {i : Instr} {a : Nat} {v : Int} {d : Bool} (hb : s.block = some b)
    (hw : Writes s.cfg b i a v d) : exec i s = .next (answering (s.setBlock (b.writeCell a v)) (.ok none d)) := by
  cases hw with
  | reg h => simp [exec, execRegWrite, withBlock_some hb, h, answerOk, answering]
  | flag h => exact exec_flagSet_legal hb h _
  | cmp x y => exact exec_cmp_both hb x y

theorem selectCell_writeCell (b : Block) (a : Nat) (v addr : Int) :
    selectCell (b.writeCell a v) addr = selectCell b addr := by
  simp [selectCell]

/-- What a command writes is already what it would write over its own result (spec/20_memory.md R56). -/
theorem writes_after_writes {c : Config} {b : Block} {i : Instr} {a : Nat} {v : Int} {d : Bool} (hw : Writes c b i a v d) :
    Writes c (b.writeCell a v) i a v d := by
  cases hw with
  | reg h => exact .reg ((selectCell_writeCell b a _ _).trans h)
  | @flag name st f h =>
    have hagain := Writes.flag (c := c) (b := b.writeCell 0 (putFlag c b.sr f st)) (st := st) h
    rwa [writeCell_zero_sr, putFlag_putFlag_same] at hagain
  | cmp x y =>
    have hagain := Writes.cmp (c := c) (b := b.writeCell 0 (cmpStatus c b.sr (wire c x) (wire c y))) x y
    rwa [writeCell_zero_sr, cmpStatus_cmpStatus_same] at hagain

/-- Settles O41: a command that only answers reads nothing the first one changed; one that writes does the same write again, over
its own result. -/
theorem repeatChangesNothing : Obligations.RepeatChangesNothing := by
  intro i s s' h
  obtain ⟨b, -, he⟩ := exec_effect h
  cases he with
  | faulted k => rw [exec_answer, h]
  | answered v _ => rw [exec_answer, h]
  | @wrote a v d hw =>
    calc exec i { s.setBlock (b.writeCell a v) with answer := some (.ok none d) }
        = exec i (s.setBlock (b.writeCell a v)) := exec_answer _ _ _
      _ = .next (answering (s.setBlock ((b.writeCell a v).writeCell a v)) (.ok none d)) :=
          exec_of_writes (setBlock_block _ _) (writes_after_writes hw)
      _ = .next { s.setBlock (b.writeCell a v) with answer := some (.ok none d) } := by rw [writeCell_writeCell, answering]

/-! ## A cell that holds a value, along a run -/

/-- The block has the parameters `c` and the cell `a`, which is written and of value `v` (spec/10_state.md R23). -/
def CellHolds (c : Config) (a : Nat) (v : Int) (s : State) : Prop :=
  s.cfg = c ∧ ∃ b, s.block = some b ∧ a ≤ b.n ∧ b.readCell a = some v

theorem cellHolds_of_writes {s s' : State} {b : Block} {i : Instr} {a : Nat} {v : Int} {d : Bool} (hb : s.block = some b)
    (hw : Writes s.cfg b i a v d) (h : exec i s = .next s') : CellHolds s.cfg a v s' := by
  cases (exec_of_writes hb hw).symm.trans h
  exact ⟨rfl, b.writeCell a v, rfl, (writes_le hw).trans_eq (writeCell_n b a v).symm, readCell_writeCell_same b a v⟩

theorem exec_keeps_cellHolds {c : Config} {a : Nat} {v : Int} {i : Instr} {s s' : State} (hi : writesCell c a i = false)
    (hs : CellHolds c a v s) (h : exec i s = .next s') : CellHolds c a v s' := by
  obtain ⟨rfl, b, hb, ha, hv⟩ := hs
  cases effect_of_exec hb h with
  | faulted k => exact ⟨rfl, b, hb, ha, hv⟩
  | answered w _ => exact ⟨rfl, b, hb, ha, hv⟩
  | @wrote a' w d hw =>
    have hne : a ≠ a' := by
      rintro rfl
      simp [writes_writesCell hw] at hi
    exact ⟨rfl, b.writeCell a' w, rfl, ha.trans_eq (writeCell_n b a' w).symm, (readCell_writeCell_other b w hne).trans hv⟩

/-- What every command of a sequence keeps, the whole sequence keeps (spec/20_memory.md R59). -/
theorem execAll_keeps {P : State → Prop} {is : List Instr} {s s' : State}
    (hkeep : ∀ i ∈ is, ∀ t t', P t → exec i t = .next t' → P t') (hs : P s) (h : execAll is s = .next s') : P s' := by
  induction is generalizing s with
  | nil => cases h; exact hs
  | cons i is ih =>
    rw [execAll] at h
    split at h
    · next t ht =>
      exact ih (fun j hj => hkeep j (List.mem_cons_of_mem i hj)) (hkeep i List.mem_cons_self s t hs ht) h
    · cases h
    · cases h

theorem exec_regRead_of_cellHolds {c : Config} {a : Nat} {v addr : Int} {s : State} (haddr : wire c addr = (a : Int))
    (hs : CellHolds c a v s) : exec (.regRead addr) s = .next (answering s (.ok (some v) false)) := by
  obtain ⟨rfl, b, hb, ha, hv⟩ := hs
  have hsel : selectCell b (wire s.cfg addr) = some a := by
    rw [haddr]
    exact selectCell_of_bounds ⟨Int.natCast_nonneg a, Int.ofNat_le.2 ha⟩
  simp [exec, execRegRead, withBlock_some hb, hsel, hv, answerOk, answering]

/-- The three writing commands alike: a read of the cell answers what was written, after any commands that cannot write the cell. -/
theorem exec_regRead_after_writes {s s1 s2 : State} {b : Block} {i : Instr} {a : Nat} {v addr : Int} {d : Bool}
    {between : List Instr} (hb : s.block = some b) (hw : Writes s.cfg b i a v d) (h : exec i s = .next s1)
    (hbetween : ∀ j ∈ between, writesCell s.cfg a j = false) (hrun : execAll between s1 = .next s2)
    (haddr : wire s.cfg addr = (a : Int)) : exec (.regRead addr) s2 = .next (answering s2 (.ok (some v) false)) :=
  exec_regRead_of_cellHolds haddr <|
    execAll_keeps (fun j hj _ _ => exec_keeps_cellHolds (hbetween j hj)) (cellHolds_of_writes hb hw h) hrun

/-- Settles O32: `exec_regRead_after_writes` for the write each of the three commands does; the bits of the value are those of
`putFlag` and of `cmpStatus`. -/
theorem readAfterWrite : Obligations.ReadAfterWrite := by
  refine ⟨?reg, ?flag, ?cmp⟩
  case reg =>
    intro s s1 s2 b addr v between hc hb h0 hn haddr hv h hbetween hrun
    have hwire : wire s.cfg addr = addr := wire_of_inRange hc haddr
    have hsel : selectCell b (wire s.cfg addr) = some addr.toNat := by
      rw [hwire]
      exact selectCell_of_bounds ⟨h0, hn⟩
    have hread := exec_regRead_after_writes hb (.reg hsel) h hbetween hrun (hwire.trans (Int.toNat_of_nonneg h0).symm)
    rwa [wire_of_inRange hc hv] at hread
  case flag =>
    intro s s1 s2 b name f st between _ hb hname h hbetween hrun
    exact ⟨putFlag s.cfg b.sr f st,
      exec_regRead_after_writes hb (.flag hname) h hbetween hrun (wrap_zero _),
      fun i hi => getBit_putBit b.sr (s.cfg.flagBit f) i st hi⟩
  case cmp =>
    intro s s1 s2 b x y between hc hb hx hy h hbetween hrun
    have hread := exec_regRead_after_writes hb (.cmp x y) h hbetween hrun (wrap_zero _)
    rw [wire_of_inRange hc hx, wire_of_inRange hc hy] at hread
    exact ⟨cmpStatus s.cfg b.sr x y, hread, getFlag_cmpStatus hc b.sr x y,
      fun i hi hother => getBit_cmpStatus_other b.sr x y hi hother⟩

end Sys2Proof.Proofs

/-!
PROOFS. The encoding of the commands (spec/30_encoding.md): what each command select decodes to, that decoding undoes encoding, which
row of the opcode table a selector word selects, which strings name a flag, and an answer on the wires.
-/

namespace Sys2Proof.Proofs

open Sys2Proof Sys2Proof.Machine Sys2Proof.Laws

/-! ## What each command select decodes to -/

section Select

variable {c : Config} {p : Port}

theorem decode_idle (h : p.cmd.toNat = 0) : decode c p = .idle := by
  simp [decode, h]

theorem decode_compute (h : p.cmd.toNat = 1) : decode c p = decodeCompute (ofWires c.xlen p.opcode)
    (operandOf c.xlen p.arg1Present p.arg1) (operandOf c.xlen p.arg2Present p.arg2) := by
  simp [decode, h]

theorem decode_regRead (h : p.cmd.toNat = 2) : decode c p = .instr (.regRead (ofWires c.xlen p.addr)) := by
  simp [decode, h]

theorem decode_regWrite (h : p.cmd.toNat = 3) :
    decode c p = .instr (.regWrite (ofWires c.xlen p.addr) (ofWires c.xlen p.wdata)) := by
  simp [decode, h]

theorem decode_flagSet (h : p.cmd.toNat = 4) : decode c p = .instr (.flagSet (fnameOf p) p.fstate) := by
  simp [decode, h]

theorem decode_flagGet (h : p.cmd.toNat = 5) : decode c p = .instr (.flagGet (fnameOf p)) := by
  simp [decode, h]

theorem decode_reserved (h : 6 ≤ p.cmd.toNat) : decode c p = .reserved p.cmd := by
  unfold decode
  split
  case h_7 => rfl
  all_goals omega

end Select

/-- The selects of spec/30_encoding.md R74, and the reserved ones (R82). -/
theorem cmd_cases (p : Port) : p.cmd.toNat = 0 ∨ p.cmd.toNat = 1 ∨ p.cmd.toNat = 2 ∨ p.cmd.toNat = 3 ∨ p.cmd.toNat = 4 ∨
    p.cmd.toNat = 5 ∨ 6 ≤ p.cmd.toNat := by
  omega

/-- A code of the table is looked up. -/
theorem decodeCompute_known {code : Int} (h0 : 0 ≤ code) (h12 : code ≤ 12) (a b : Option Int) :
    ∃ f, catalogue[code.toNat]? = some f ∧ decodeCompute code a b = .instr (f a b) := by
  obtain ⟨k, f, rfl, -, hf, e⟩ | ⟨hout, -⟩ := decodeCompute_cases code a b
  · exact ⟨f, hf, e⟩
  · omega

theorem decodeCompute_unknown {code : Int} (h : code < 0 ∨ 12 < code) (a b : Option Int) :
    decodeCompute code a b = .unknownOpCode code := by
  obtain ⟨k, f, rfl, hk, -, -⟩ | ⟨-, e⟩ := decodeCompute_cases code a b
  · omega
  · exact e

/-- A select from 2 to 5 is a command of the register file (spec/30_encoding.md R74). -/
theorem decode_register_instr {c : Config} {p : Port} (h2 : 2 ≤ p.cmd.toNat) (h5 : p.cmd.toNat ≤ 5) :
    ∃ i, decode c p = .instr i := by
  obtain hp | hp | hp | hp : p.cmd.toNat = 2 ∨ p.cmd.toNat = 3 ∨ p.cmd.toNat = 4 ∨ p.cmd.toNat = 5 := by omega
  · exact ⟨_, decode_regRead hp⟩
  · exact ⟨_, decode_regWrite hp⟩
  · exact ⟨_, decode_flagSet hp⟩
  · exact ⟨_, decode_flagGet hp⟩

/-- A select from 1 to 5 is a command: of the table, or a COMPUTE of no entry (spec/30_encoding.md R81, R84). -/
theorem decode_command {c : Config} {p : Port} (h1 : 1 ≤ p.cmd.toNat) (h5 : p.cmd.toNat ≤ 5) :
    (∃ i, decode c p = .instr i) ∨ ∃ code, decode c p = .unknownOpCode code := by
  obtain hp | h2 : p.cmd.toNat = 1 ∨ 2 ≤ p.cmd.toNat := by omega
  · rw [decode_compute hp]
    exact (decodeCompute_cases _ _ _).imp (fun ⟨_, _, _, _, _, e⟩ => ⟨_, e⟩) (fun ⟨_, e⟩ => ⟨_, e⟩)
  · exact .inl (decode_register_instr h2 h5)

/-- Settles O4: by the command select, and for a COMPUTE by whether its code is one of the table. -/
theorem decodeTotal : Obligations.DecodeTotal := by
  intro c p
  refine ⟨decode_idle, ?known, ?unknown, decode_regRead, decode_regWrite, decode_flagSet, decode_flagGet, decode_reserved⟩
  case known =>
    intro hcmd h0 h12
    rw [decode_compute hcmd]
    exact decodeCompute_known h0 h12 _ _
  case unknown =>
    intro hcmd hcode
    rw [decode_compute hcmd]
    exact decodeCompute_unknown hcode _ _

/-! ## Decoding undoes encoding -/

/-- The entry a COMPUTE was encoded for is the one it decodes to, with its operands (spec/30_encoding.md R76, R79). -/
theorem decode_encodeCompute {c : Config} (hc : c.valid = true) {k : Nat} {f : Option Int → Option Int → Instr}
    {a b : Option Int} (hf : catalogue[k]? = some f) (hab : (operandFits c a && operandFits c b) = true) :
    decode c (encodeCompute c k a b) = .instr (f a b) := by
  obtain ⟨ha, hb⟩ := Bool.and_eq_true_iff.1 hab
  have hk : k < 13 := (List.getElem?_eq_some_iff.1 hf).1
  have hx : 0 < c.xlen := valid_xlen_pos hc
  calc decode c (encodeCompute c k a b)
      = decodeCompute (ofWires c.xlen k) (operandOf c.xlen a.isSome ((a.map (toWires c.xlen)).getD 0))
          (operandOf c.xlen b.isSome ((b.map (toWires c.xlen)).getD 0)) := decode_compute rfl
    _ = decodeCompute (k : Int) a b := by
          rw [ofWires_small (valid_iff.1 hc).1 (by omega), operandOf_toWires hx ha, operandOf_toWires hx hb]
    _ = .instr (f a b) := decodeCompute_entry hf a b

/-- A name's presence bit and character code give the name back (spec/30_encoding.md R80). -/
theorem fnameOf_wires {p : Port} {name : Option (BitVec 8)} (hpresent : p.fnamePresent = name.isSome)
    (hcode : p.fname = name.getD 0) : fnameOf p = name := by
  cases name <;> simp [fnameOf, hpresent, hcode]

/-- Settles O2: a COMPUTE by `decode_encodeCompute`; an address and a written value because the wires carry every number of the
width; a flag name by `fnameOf_wires`. -/
theorem decodeEncode : Obligations.DecodeEncode := by
  intro c i hc hi
  have hx : 0 < c.xlen := valid_xlen_pos hc
  cases i with
  | regRead addr => rw [encode, decode_regRead rfl, ofWires_toWires hx hi]
  | regWrite addr wdata =>
    obtain ⟨haddr, hdata⟩ := Bool.and_eq_true_iff.1 hi
    rw [encode, decode_regWrite rfl, ofWires_toWires hx haddr, ofWires_toWires hx hdata]
  | flagSet name st => rw [encode, decode_flagSet rfl, fnameOf_wires rfl rfl]
  | flagGet name => rw [encode, decode_flagGet rfl, fnameOf_wires rfl rfl]
  | _ => exact decode_encodeCompute hc rfl hi

/-! ## Wires that are not read -/

theorem operandOf_congr (xlen : Nat) {present present' : Bool} {w w' : Nat} (hp : present = present')
    (hw : present = true → w = w') : operandOf xlen present w = operandOf xlen present' w' := by
  subst hp
  cases present
  · rfl
  · rw [hw rfl]

theorem fnameOf_congr {p q : Port} (hp : p.fnamePresent = q.fnamePresent)
    (hname : p.fnamePresent = true → p.fname = q.fname) : fnameOf p = fnameOf q := by
  rw [fnameOf, fnameOf, ← hp]
  split
  · rw [hname ‹_›]
  · rfl

/-- Settles O5: by the command select; each format's equation names the fields it reads, and value wires only through
`operandOf` and `fnameOf`. -/
theorem unreadWiresIgnored : Obligations.UnreadWiresIgnored := by
  intro c p q hcmd hcompute hread hwrite hset hget
  have hq : q.cmd.toNat = p.cmd.toNat := by rw [hcmd]
  obtain hp | hp | hp | hp | hp | hp | hp := cmd_cases p
  · rw [decode_idle hp, decode_idle (hq.trans hp)]
  · obtain ⟨hopcode, h1, hw1, h2, hw2⟩ := hcompute (BitVec.eq_of_toNat_eq hp)
    rw [decode_compute hp, decode_compute (hq.trans hp), hopcode, operandOf_congr c.xlen h1 hw1, operandOf_congr c.xlen h2 hw2]
  · rw [decode_regRead hp, decode_regRead (hq.trans hp), hread (BitVec.eq_of_toNat_eq hp)]
  · obtain ⟨haddr, hdata⟩ := hwrite (BitVec.eq_of_toNat_eq hp)
    rw [decode_regWrite hp, decode_regWrite (hq.trans hp), haddr, hdata]
  · obtain ⟨hpresent, hname, hstate⟩ := hset (BitVec.eq_of_toNat_eq hp)
    rw [decode_flagSet hp, decode_flagSet (hq.trans hp), fnameOf_congr hpresent hname, hstate]
  · obtain ⟨hpresent, hname⟩ := hget (BitVec.eq_of_toNat_eq hp)
    rw [decode_flagGet hp, decode_flagGet (hq.trans hp), fnameOf_congr hpresent hname]
  · rw [decode_reserved hp, decode_reserved (hp.trans_eq hq.symm), hcmd]

/-! ## Rows of the opcode table -/

/-- A code of the table is read from the opcode wires exactly when they carry it: the codes are below 128, so none is negative. -/
theorem ofWires_eq_code_iff {xlen : Nat} (h : 8 ≤ xlen) {p k : Nat} (hk : k < 13) :
    ofWires xlen p = (k : Int) ↔ p % 2 ^ xlen = k := by
  have hpow : 2 ^ 8 ≤ 2 ^ xlen := Nat.pow_le_pow_right (by omega) h
  have hred : ofWires xlen (p % 2 ^ xlen) = ofWires xlen p := by
    rw [ofWires, ofWires, wrap, wrap, Int.natCast_mod, Int.emod_bmod]
  constructor
  · intro hp
    have hmod : (p : Int) % ((2 ^ xlen : Nat) : Int) = (k : Int) % ((2 ^ xlen : Nat) : Int) := by
      rw [← hp, ofWires, wrap, Int.bmod_emod]
    have hnat : p % 2 ^ xlen = k % 2 ^ xlen := by exact_mod_cast hmod
    rwa [Nat.mod_eq_of_lt (show k < 2 ^ xlen by omega)] at hnat
  · intro hp
    rw [← hred, hp, ofWires_small h (by omega)]

theorem rowSelector_entry (xlen : Nat) {k : Nat} {f : Option Int → Option Int → Instr} (hf : catalogue[k]? = some f)
    (a b : Option Int) : rowSelector xlen (f a b) = 2 ^ xlen + k := by
  have hk : k < 13 := (List.getElem?_eq_some_iff.1 hf).1
  interval_cases k <;> cases hf <;> rfl

/-- The selector word of a decoded instruction's row, in the wires it was decoded from (spec/30_encoding.md R75). -/
theorem rowSelector_of_decode {c : Config} (hc : c.valid = true) {p : Port} {i : Instr} (h : decode c p = .instr i) :
    (p.cmd.toNat = 1 ∧ p.opcode % 2 ^ c.xlen < 13 ∧ rowSelector c.xlen i = 2 ^ c.xlen + p.opcode % 2 ^ c.xlen) ∨
    (2 ≤ p.cmd.toNat ∧ p.cmd.toNat ≤ 5 ∧ rowSelector c.xlen i = p.cmd.toNat * 2 ^ c.xlen) := by
  obtain hp | hp | hp | hp | hp | hp | hp := cmd_cases p
  · cases (decode_idle hp).symm.trans h
  · left
    rw [decode_compute hp] at h
    obtain ⟨k, f, hcode, hk, hf, e⟩ | ⟨-, e⟩ := decodeCompute_cases (ofWires c.xlen p.opcode)
      (operandOf c.xlen p.arg1Present p.arg1) (operandOf c.xlen p.arg2Present p.arg2)
    · cases e.symm.trans h
      rw [(ofWires_eq_code_iff (valid_iff.1 hc).1 hk).1 hcode]
      exact ⟨hp, hk, rowSelector_entry c.xlen hf _ _⟩
    · cases e.symm.trans h
  · cases (decode_regRead hp).symm.trans h
    exact .inr (by simp [hp, rowSelector])
  · cases (decode_regWrite hp).symm.trans h
    exact .inr (by simp [hp, rowSelector])
  · cases (decode_flagSet hp).symm.trans h
    exact .inr (by simp [hp, rowSelector])
  · cases (decode_flagGet hp).symm.trans h
    exact .inr (by simp [hp, rowSelector])
  · cases (decode_reserved hp).symm.trans h

theorem decode_compute_instr {c : Config} (hc : c.valid = true) {p : Port} (hp : p.cmd.toNat = 1)
    (hcode : p.opcode % 2 ^ c.xlen < 13) : ∃ i, decode c p = .instr i := by
  have hwires : ofWires c.xlen p.opcode = ((p.opcode % 2 ^ c.xlen : Nat) : Int) :=
    (ofWires_eq_code_iff (valid_iff.1 hc).1 hcode).2 rfl
  obtain ⟨f, -, e⟩ := decodeCompute_known (code := ofWires c.xlen p.opcode) (by omega) (by omega)
    (operandOf c.xlen p.arg1Present p.arg1) (operandOf c.xlen p.arg2Present p.arg2)
  exact ⟨_, (decode_compute hp).trans e⟩

/-- The two kinds of row: a COMPUTE matches the whole selector word, the other commands match `cmd` alone. -/
theorem opcodeTable_row : ∀ row ∈ opcodeTable,
    (row.mask = 2 ^ 35 - 1 ∧ 2 ^ 32 ≤ row.bits ∧ row.bits < 2 ^ 32 + 13) ∨
    (row.mask = 7 * 2 ^ 32 ∧
      (row.bits = 2 * 2 ^ 32 ∨ row.bits = 3 * 2 ^ 32 ∨ row.bits = 4 * 2 ^ 32 ∨ row.bits = 5 * 2 ^ 32)) := by
  decide

/-- No two rows share a mnemonic or a selector word. -/
theorem opcodeTable_distinct : ∀ row ∈ opcodeTable, ∀ row' ∈ opcodeTable,
    row.mnemonic = row'.mnemonic ↔ row.bits = row'.bits := by
  decide

theorem exists_row (i : Instr) : ∃ row ∈ opcodeTable, row.mnemonic = i.mnemonic ∧ row.bits = rowSelector 32 i := by
  cases i <;> simp [opcodeTable, Instr.mnemonic, rowSelector]

theorem mnemonic_eq_iff {row : TableRow} (hrow : row ∈ opcodeTable) (i : Instr) :
    i.mnemonic = row.mnemonic ↔ rowSelector 32 i = row.bits := by
  obtain ⟨row', hrow', hname, hbits⟩ := exists_row i
  rw [← hname, ← hbits]
  exact opcodeTable_distinct row' hrow' row hrow

/-- Under the mask of a COMPUTE row the whole selector word is left. -/
theorem sel_and_full (p : Port) : sel Config.default p &&& (2 ^ 35 - 1) = p.cmd.toNat * 2 ^ 32 + p.opcode % 2 ^ 32 := by
  have hcmd := p.cmd.isLt
  rw [Nat.and_two_pow_sub_one_eq_mod]
  change (p.cmd.toNat * 2 ^ 32 + p.opcode % 2 ^ 32) % 2 ^ 35 = _
  omega

/-- Under the mask of the other rows `cmd` is left. -/
theorem sel_and_cmd (p : Port) : sel Config.default p &&& (7 * 2 ^ 32) = p.cmd.toNat * 2 ^ 32 := by
  have hlow : p.opcode % 2 ^ 32 < 2 ^ 32 := Nat.mod_lt _ (by decide)
  have hhigh : (p.cmd.toNat * 2 ^ 32 + p.opcode % 2 ^ 32) / 2 ^ 32 = p.cmd.toNat := by omega
  have hcmd : p.cmd.toNat &&& 7 = p.cmd.toNat := by
    rw [show 7 = 2 ^ 3 - 1 from rfl, Nat.and_two_pow_sub_one_eq_mod, Nat.mod_eq_of_lt p.cmd.isLt]
  change (p.cmd.toNat * 2 ^ 32 + p.opcode % 2 ^ 32) &&& (7 * 2 ^ 32) = _
  rw [← Nat.div_add_mod (_ &&& _) (2 ^ 32), Nat.and_div_two_pow, Nat.and_mod_two_pow, hhigh, Nat.mul_div_cancel 7 (by decide),
    Nat.mul_mod_left, Nat.and_zero, hcmd, Nat.add_zero, Nat.mul_comm]

/-- Which rows' selector words a presentation decodes to, in its own wires. -/
theorem exists_decode_iff {c : Config} (hc : c.valid = true) {p : Port} {w : Nat} :
    (∃ i, decode c p = .instr i ∧ rowSelector c.xlen i = w) ↔
      (p.cmd.toNat = 1 ∧ p.opcode % 2 ^ c.xlen < 13 ∧ 2 ^ c.xlen + p.opcode % 2 ^ c.xlen = w) ∨
      (2 ≤ p.cmd.toNat ∧ p.cmd.toNat ≤ 5 ∧ p.cmd.toNat * 2 ^ c.xlen = w) := by
  constructor
  · rintro ⟨i, hi, rfl⟩
    exact (rowSelector_of_decode hc hi).imp (fun ⟨h, hk, e⟩ => ⟨h, hk, e.symm⟩) (fun ⟨h2, h5, e⟩ => ⟨h2, h5, e.symm⟩)
  · rintro (⟨h, hk, rfl⟩ | ⟨h2, h5, rfl⟩)
    · obtain ⟨i, hi⟩ := decode_compute_instr hc h hk
      obtain ⟨-, -, e⟩ | ⟨_, -, -⟩ := rowSelector_of_decode hc hi
      · exact ⟨i, hi, e⟩
      · omega
    · obtain ⟨i, hi⟩ := decode_register_instr (c := c) h2 h5
      obtain ⟨_, -, -⟩ | ⟨-, -, e⟩ := rowSelector_of_decode hc hi
      · omega
      · exact ⟨i, hi, e⟩

/-- Settles O3: a mnemonic is a row's selector word, and each kind of row asks of `cmd` and the opcode wires what
`exists_decode_iff` says of that word. -/
theorem rowSelected : Obligations.RowSelected := by
  intro p row hrow
  have hc : Config.default.valid = true := by decide
  have hlow : p.opcode % 2 ^ 32 < 2 ^ 32 := Nat.mod_lt _ (by decide)
  simp only [mnemonic_eq_iff hrow]
  refine Iff.trans ?_ (exists_decode_iff hc).symm
  rw [show Config.default.xlen = 32 from rfl]
  obtain ⟨hmask, hbits⟩ | ⟨hmask, hbits⟩ := opcodeTable_row row hrow
  · rw [hmask, sel_and_full]
    omega
  · rw [hmask, sel_and_cmd]
    omega

/-- Settles O1: the words are closed, and decoding computes. -/
theorem tableWordsDecode : Obligations.TableWordsDecode := by
  unfold Obligations.TableWordsDecode
  decide

/-! ## Names of flags -/

/-- Of all strings only the one-character string itself is presented as the code of its character (spec/30_encoding.md R80). -/
theorem adapterName_code_iff {str : List Char} {ch : Char} (h0 : 0 < ch.toNat) (h256 : ch.toNat < 256) :
    (adapterName (some str)).2 = BitVec.ofNat 8 ch.toNat ↔ str = [ch] := by
  have hzero : ¬ 0#8 = BitVec.ofNat 8 ch.toNat := by
    intro h
    have hmod : 0 = ch.toNat % 2 ^ 8 := congrArg BitVec.toNat h
    omega
  match str with
  | [] => simp [adapterName, hzero]
  | [a] =>
    by_cases ha : a.toNat < 256
    · simp [adapterName, ha, ← BitVec.toNat_inj, Nat.mod_eq_of_lt ha, Nat.mod_eq_of_lt h256, Char.toNat_inj]
    · have hne : a ≠ ch := by
        rintro rfl
        exact ha h256
      simp [adapterName, ha, hzero, hne]
  | _ :: _ :: _ => simp [adapterName, hzero]

theorem checkName_illegal {code : BitVec 8} (hz : code ≠ 0x5A#8) (hcarry : code ≠ 0x43#8) (hn : code ≠ 0x4E#8) :
    checkName (some code) = .error .invalidFlagName := by
  simp [checkName, flagOfCode, hz, hcarry, hn]

/-- A missing name is presented as absent, every string as a name. -/
theorem fnameOf_adapter {p : Port} {name : Option (List Char)} (hpresent : p.fnamePresent = (adapterName name).1)
    (hcode : p.fname = (adapterName name).2) : fnameOf p = name.map fun str => (adapterName (some str)).2 := by
  match name with
  | none | some [] | some [_] | some (_ :: _ :: _) => simp [fnameOf, hpresent, hcode, adapterName]

/-- Settles O33: the three names compute; any other string is presented as none of their codes (`adapterName_code_iff`). -/
theorem flagNameCheck : Obligations.FlagNameCheck := by
  intro name p hpresent hcode
  rw [fnameOf_adapter hpresent hcode]
  refine ⟨?absent, ?zero, ?carry, ?negative, ?illegal⟩
  case absent => rintro rfl; rfl
  case zero => rintro rfl; rfl
  case carry => rintro rfl; rfl
  case negative => rintro rfl; rfl
  case illegal =>
    intro hname hz hcarry hn
    obtain ⟨str, rfl⟩ := Option.ne_none_iff_exists'.1 hname
    rw [Option.some_inj.ne] at hz hcarry hn
    exact checkName_illegal (mt (adapterName_code_iff (ch := 'Z') (by decide) (by decide)).1 hz)
      (mt (adapterName_code_iff (ch := 'C') (by decide) (by decide)).1 hcarry)
      (mt (adapterName_code_iff (ch := 'N') (by decide) (by decide)).1 hn)

/-! ## Answers on the wires -/

theorem FaultKind_code_range (k : FaultKind) : 1 ≤ k.code ∧ k.code ≤ 8 := by
  cases k <;> decide

/-- A kind stands in the list of spec/60_exceptions.md R180 where its code says, counting from 1. -/
theorem FaultKind_at_code (k : FaultKind) : [FaultKind.invalidConstruction, .outOfBounds, .uninitialized, .unknownOpCode,
    .arityMismatch, .divisionByZero, .invalidFlagName, .nullArgument][k.code - 1]? = some k := by
  cases k <;> rfl

theorem FaultKind_code_injective {k l : FaultKind} (h : k.code = l.code) : k = l := by
  have hk := FaultKind_at_code k
  rw [h, FaultKind_at_code l] at hk
  exact (Option.some.inj hk).symm

/-- Settles O40: the codes fit in the four status wires. -/
theorem responseWires : Obligations.ResponseWires := by
  intro c
  refine ⟨fun r d => rfl, fun k => ⟨?status, rfl, rfl, rfl⟩, FaultKind_code_range, fun _ _ => FaultKind_code_injective,
    rfl, rfl, rfl, rfl, rfl, rfl, rfl, rfl⟩
  case status =>
    obtain ⟨-, h8⟩ := FaultKind_code_range k
    exact Nat.mod_eq_of_lt (show k.code < 2 ^ 4 by omega)

end Sys2Proof.Proofs

/-!
PROOFS. The presentations the block answers nothing to or refuses (spec/30_encoding.md R71, R82; spec/40_regfile_commands.md R100).
-/

namespace Sys2Proof.Proofs

open Sys2Proof Sys2Proof.Machine Sys2Proof.Laws

/-! ## IDLE and the reserved selects -/

theorem step_command {s : State} {p : Port} {rest : List Input} (h : s.inputs = .present false p :: rest) :
    step s = perform (decode s.cfg p) (s.take rest) := by
  rw [step_of_cons h, accept_command, take_cfg]

/-- Settles O8: what is performed of IDLE is nothing. -/
theorem idleDoesNothing : Obligations.IdleDoesNothing := by
  refine ⟨fun s h => ?empty, fun s p rest h hcmd => ?idle⟩
  case empty =>
    rw [step_of_nil h, State.take, ← h]
  case idle =>
    rw [step_command h, decode_idle (congrArg BitVec.toNat hcmd)]
    rfl

/-- Settles O9: both selects decode to `Decoded.reserved`. -/
theorem reservedSelectRefused : Obligations.ReservedSelectRefused := by
  intro s p rest h hcmd
  have h6 : 6 ≤ p.cmd.toNat := by
    obtain hcmd | hcmd := hcmd <;> rw [hcmd] <;> decide
  rw [step_command h, decode_reserved h6, perform]

/-! ## What is refused -/

/-- An operation that answers wherever a block exists, and needs one, is refused exactly where there is none. -/
theorem refused_iff_noBlock {s : State} {o : Host.Outcome State Fault Refusal}
    (hsome : ∀ b, s.block = some b → ∃ s', o = .next s') (hnone : s.block = none → o = .refused .noBlock) :
    (∃ r, o = .refused r) ↔ s.block = none := by
  refine ⟨?_, fun h => ⟨_, hnone h⟩⟩
  rintro ⟨r, hr⟩
  by_contra hb
  obtain ⟨b, hb⟩ := Option.ne_none_iff_exists'.1 hb
  obtain ⟨s', hs'⟩ := hsome b hb
  cases hs'.symm.trans hr

/-- Every command goes through `withBlock` (spec/40_regfile_commands.md R100). -/
theorem exec_of_noBlock (i : Instr) {s : State} (h : s.block = none) : exec i s = .refused .noBlock := by
  cases i <;> exact withBlock_none h _

theorem exec_refused_iff (i : Instr) (s : State) : (∃ r, exec i s = .refused r) ↔ s.block = none :=
  refused_iff_noBlock (fun _ => exec_next i) (exec_of_noBlock i)

theorem computeUnknown_refused_iff (s : State) : (∃ r, computeUnknown s = .refused r) ↔ s.block = none :=
  refused_iff_noBlock (fun _ hb => ⟨_, withBlock_some hb _⟩) (fun h => withBlock_none h _)

theorem assertReset_refused_iff (s : State) : (∃ r, assertReset s = .refused r) ↔ s.block = none :=
  refused_iff_noBlock (fun _ hb => ⟨_, withBlock_some hb _⟩) (fun h => withBlock_none h _)

theorem construct_refused_iff (n : Int) (s : State) :
    (∃ r, construct n s = .refused r) ↔ s.cfg.valid = false ∨ (s.cfg.maxCount : Int) < n := by
  have hcount : 0 ≤ (s.cfg.maxCount : Int) := Int.natCast_nonneg _
  unfold construct
  split_ifs with hvalid hneg hbig
  · exact ⟨fun _ => .inl hvalid, fun _ => ⟨_, rfl⟩⟩
  · exact ⟨nofun, fun h => absurd (h.resolve_left hvalid) (by omega)⟩
  · exact ⟨fun _ => .inr hbig, fun _ => ⟨_, rfl⟩⟩
  · exact ⟨nofun, fun h => absurd (h.resolve_left hvalid) hbig⟩

/-- A select from 1 to 5 names a command, which needs a block; 0 is IDLE and 6 and 7 are reserved (spec/30_encoding.md R84). -/
theorem perform_refused_iff (c : Config) (p : Port) (s : State) : (∃ r, perform (decode c p) s = .refused r) ↔
    6 ≤ p.cmd.toNat ∨ (1 ≤ p.cmd.toNat ∧ s.block = none) := by
  by_cases h0 : p.cmd.toNat = 0
  · rw [decode_idle h0]
    exact ⟨nofun, by omega⟩
  by_cases h6 : 6 ≤ p.cmd.toNat
  · rw [decode_reserved h6]
    exact ⟨fun _ => .inl h6, fun _ => ⟨_, rfl⟩⟩
  have hcommand : (∃ r, perform (decode c p) s = .refused r) ↔ s.block = none := by
    obtain ⟨i, hi⟩ | ⟨code, hcode⟩ := decode_command (c := c) (p := p) (by omega) (by omega)
    · rw [hi]
      exact exec_refused_iff i s
    · rw [hcode]
      exact computeUnknown_refused_iff s
  rw [hcommand]
  exact ⟨fun h => .inr ⟨by omega, h⟩, fun h => (h.resolve_left h6).2⟩

/-- Settles O54: by the input at the head of the list, each with its own `_refused_iff`. -/
theorem refusedExactly : Obligations.RefusedExactly := by
  intro s
  cases hin : s.inputs with
  | nil => simp [step_of_nil hin]
  | cons inp rest =>
    rw [step_of_cons hin]
    match inp with
    | .construct n => simp [accept_construct, construct_refused_iff]
    | .present true p => simp [accept_reset, assertReset_refused_iff]
    | .present false p => simp [accept_command, perform_refused_iff]

end Sys2Proof.Proofs

/-!
PROOFS. The commands of the register file (spec/40_regfile_commands.md): each answered case of REG_READ, REG_WRITE, FLAG_SET and
FLAG_GET, the diagnostic, construction, and commands where no block exists.
-/

namespace Sys2Proof.Proofs

open Sys2Proof Sys2Proof.Machine Sys2Proof.Laws

/-! ## The cell an address on the wires selects -/

section Address

variable {c : Config} (hc : c.valid = true) {addr : Int} (haddr : inRange c.xlen addr = true) {b : Block}
include hc haddr

theorem selectCell_wire_inside (h0 : 0 ≤ addr) (hn : addr ≤ (b.n : Int)) : selectCell b (wire c addr) = some addr.toNat := by
  rw [wire_of_inRange hc haddr]
  exact selectCell_of_bounds ⟨h0, hn⟩

theorem selectCell_wire_outside (h : addr < 0 ∨ (b.n : Int) < addr) : selectCell b (wire c addr) = none := by
  rw [wire_of_inRange hc haddr]
  exact selectCell_of_not (by omega)

theorem addr_of_selectCell_wire {a : Nat} (h : selectCell b (wire c addr) = some a) : addr = (a : Int) :=
  (wire_of_inRange hc haddr).symm.trans (selectCell_some h).2

end Address

/-! ## REG_READ and REG_WRITE -/

section Cells

variable {s : State} {b : Block} (hb : s.block = some b) {addr : Int}
include hb

theorem exec_regRead_outside (h : selectCell b (wire s.cfg addr) = none) :
    exec (.regRead addr) s = .next (answering s (.fault .outOfBounds)) := by
  simp [exec, execRegRead, withBlock_some hb, h, raise, answering]

/-- Inside the file a read answers what the cell holds: `Uninitialized`, or the value (spec/40_regfile_commands.md R101). -/
theorem exec_regRead_inside {a : Nat} (h : selectCell b (wire s.cfg addr) = some a) : exec (.regRead addr) s =
    .next (answering s ((b.readCell a).elim (.fault .uninitialized) fun v => .ok (some v) false)) := by
  cases hcell : b.readCell a <;> simp [exec, execRegRead, withBlock_some hb, h, hcell, raise, answerOk, answering]

theorem exec_regWrite_outside (v : Int) (h : selectCell b (wire s.cfg addr) = none) :
    exec (.regWrite addr v) s = .next (answering s (.fault .outOfBounds)) := by
  simp [exec, execRegWrite, withBlock_some hb, h, raise, answering]

end Cells

/-- Settles O29: by whether the address selects a cell, and by what the cell holds. -/
theorem regReadRule : Obligations.RegReadRule := by
  intro s b addr hc hb haddr
  refine ⟨?outside, ?unwritten, ?written, rfl⟩
  case outside => exact fun hout => exec_regRead_outside hb (selectCell_wire_outside hc haddr hout)
  case unwritten =>
    intro h0 hn hcell
    rw [exec_regRead_inside hb (selectCell_wire_inside hc haddr h0 hn), hcell, Option.elim_none]
  case written =>
    intro v h0 hn hcell
    rw [exec_regRead_inside hb (selectCell_wire_inside hc haddr h0 hn), hcell, Option.elim_some]

/-- Settles O30: inside the file the write is the one of `Writes.reg`, and what it leaves is said by the laws of `writeCell`. -/
theorem regWriteRule : Obligations.RegWriteRule := by
  intro s b addr v hc hb haddr hv
  refine ⟨?outside, ?inside, rfl⟩
  case outside => exact fun hout => exec_regWrite_outside hb v (selectCell_wire_outside hc haddr hout)
  case inside =>
    intro h0 hn
    have hexec := exec_of_writes hb (.reg (wdata := v) (selectCell_wire_inside hc haddr h0 hn))
    have hzero : addr.toNat = 0 ↔ addr = 0 := by omega
    rw [wire_of_inRange hc hv, decide_eq_decide.2 hzero] at hexec
    refine ⟨b.writeCell addr.toNat v, hexec, writeCell_n _ _ _, readCell_writeCell_same _ _ _,
      fun a ha => readCell_writeCell_other b v ha, ?general, ?status⟩
    case general =>
      intro hne
      have hpos : addr.toNat ≠ 0 := mt hzero.1 hne
      exact ⟨writeCell_pos_sr b v hpos, writeCell_pos_srWritten b v hpos⟩
    case status =>
      rintro rfl f
      rfl

/-! ## The diagnostic -/

/-- The one write with the diagnostic is a REG_WRITE's, of cell 0 (spec/40_regfile_commands.md R103). -/
theorem regWrite_zero_of_writes_diag {c : Config} {b : Block} {i : Instr} {a : Nat} {v : Int} {d : Bool}
    (hc : c.valid = true) (hi : i.wf c = true) (hw : Writes c b i a v d) (hd : d = true) : ∃ w, i = .regWrite 0 w := by
  cases hw with
  | @reg addr wdata _ h =>
    obtain ⟨haddr, -⟩ := Bool.and_eq_true_iff.1 hi
    have haddr0 : addr = 0 := by
      rw [addr_of_selectCell_wire hc haddr h, of_decide_eq_true hd, Int.natCast_zero]
    exact ⟨wdata, by rw [haddr0]⟩
  | flag h => cases hd
  | cmp x y => cases hd

/-- Settles O31: only a write can answer with the diagnostic, and a REG_WRITE of address 0 is always performed. -/
theorem diagnosticOnlyAtZero : Obligations.DiagnosticOnlyAtZero := by
  intro i s s' hc hi h
  obtain ⟨b, hb, he⟩ := exec_effect h
  constructor
  · rintro ⟨r, hans⟩
    cases he with
    | faulted k => cases hans
    | answered v _ => cases hans
    | wrote hw =>
      cases hans
      exact regWrite_zero_of_writes_diag hc hi hw rfl
  · rintro ⟨v, rfl⟩
    cases (exec_regWrite_zero hb v).symm.trans h
    exact ⟨none, rfl⟩

/-! ## FLAG_SET and FLAG_GET -/

theorem checkName_of_no_flag {code : BitVec 8} (h : flagOfCode code = none) :
    checkName (some code) = .error .invalidFlagName := by
  simp [checkName, h]

section BadName

variable {s : State} {b : Block} (hb : s.block = some b) {name : Option (BitVec 8)} {k : FaultKind}
  (hname : checkName name = .error k)
include hb hname

theorem exec_flagSet_badName (st : Bool) : exec (.flagSet name st) s = .next (answering s (.fault k)) := by
  simp [exec, execFlagSet, withBlock_some hb, hname, raise, answering]

theorem exec_flagGet_badName : exec (.flagGet name) s = .next (answering s (.fault k)) := by
  simp [exec, execFlagGet, withBlock_some hb, hname, raise, answering]

end BadName

/-- Settles O34: with a legal name the value written is that of `putFlag`, whose bits and flags are known; any other name fails its
check. -/
theorem flagSetRule : Obligations.FlagSetRule := by
  intro s b hc hb
  refine ⟨?legal, fun st => exec_flagSet_badName hb rfl st,
    fun code st hcode => exec_flagSet_badName hb (checkName_of_no_flag hcode) st, fun code st => rfl⟩
  case legal =>
    intro name st f hname
    refine ⟨putFlag s.cfg b.sr f st, exec_flagSet_legal hb hname st, putBit_inRange (valid_xlen_pos hc) _ _ _, ?named, ?others,
      fun i hi hne => getBit_putBit_other b.sr st hi hne⟩
    case named => rw [getFlag_putFlag hc, if_pos rfl]
    case others =>
      intro g hg
      rw [getFlag_putFlag hc, if_neg hg]

/-- Settles O35: by the check of the name, then by whether the status register may be read. -/
theorem flagGetRule : Obligations.FlagGetRule := fun _ _ _ hb =>
  ⟨fun _ _ hname hread => exec_flagGet_value hb hname hread,
    fun _ _ hname hw hfresh => exec_flagGet_uninitialized hb hname hw hfresh,
    exec_flagGet_badName hb rfl,
    fun _ hcode => exec_flagGet_badName hb (checkName_of_no_flag hcode),
    fun _ => rfl⟩

/-! ## Construction, and no block -/

section Construct

variable {s : State} (hc : s.cfg.valid = true) {n : Int}
include hc

theorem construct_negative (h : n < 0) :
    construct n s = .next { s with block := none, answer := some (.fault .invalidConstruction) } := by
  simp [construct, hc, h, raise]

theorem construct_representable (h0 : 0 ≤ n) (hn : n ≤ (s.cfg.maxCount : Int)) :
    construct n s = .next { s with block := some (Block.fresh n.toNat), answer := some (.ok none false) } := by
  simp [construct, hc, h0.not_gt, hn.not_gt, answerOk, State.setBlock]

theorem construct_too_large (h : (s.cfg.maxCount : Int) < n) : construct n s = .refused (.countNotRepresentable n) := by
  have hneg : ¬ n < 0 := by omega
  simp [construct, hc, hneg, h]

end Construct

/-- Settles O47: by the count; what a representable one constructs is a fresh block. -/
theorem constructRule : Obligations.ConstructRule := by
  intro s n rest hc hin
  rw [step_of_cons hin, accept_construct]
  refine ⟨construct_negative (s := s.take rest) hc, ?made, construct_too_large (s := s.take rest) hc⟩
  case made =>
    intro h0 hn
    exact ⟨Block.fresh n.toNat, construct_representable (s := s.take rest) hc h0 hn, Int.toNat_of_nonneg h0,
      fresh_readCell n.toNat, fresh_sr _, getFlag_zero s.cfg⟩

/-- Settles O49: every command goes through `withBlock` (`exec_of_noBlock`). -/
theorem noBlockRefused : Obligations.NoBlockRefused := fun i _ => exec_of_noBlock i

end Sys2Proof.Proofs

/-!
PROOFS. The dispatch of COMPUTE (spec/41_alu_dispatch.md): a code outside the table, the wrap of the five arithmetic operations, and
what the answer of a value-returning operation depends on.
-/

namespace Sys2Proof.Proofs

open Sys2Proof Sys2Proof.Machine Sys2Proof.Laws

/-! ## A code outside the table -/

theorem computeUnknown_some {s : State} {b : Block} (hb : s.block = some b) :
    computeUnknown s = .next (answering s (.fault .unknownOpCode)) :=
  withBlock_some hb _

/-- Settles O10: the lookup of such a code names no entry, and no operand is read. -/
theorem unknownOpCodeFaults : Obligations.UnknownOpCodeFaults := by
  intro s b p rest hb hin hcmd hcode
  calc step s = computeUnknown (s.take rest) := by
        rw [step_command hin, decode_compute (congrArg BitVec.toNat hcmd), decodeCompute_unknown hcode, perform]
    _ = .next { s with inputs := rest, answer := some (.fault .unknownOpCode) } := computeUnknown_some hb

/-! ## Operations on operands of the width -/

section InRange

variable {s : State} {b : Block} (hc : s.cfg.valid = true) (hb : s.block = some b) {x y : Int}
  (hx : inRange s.cfg.xlen x = true)
include hc hb hx

/-- The wires leave an operand of the width as it is (spec/30_encoding.md R78). -/
theorem computeUnary_inRange (op : Config → Int → Int) :
    computeUnary op (some x) none s = .next (answering s (.ok (some (op s.cfg x)) false)) := by
  rw [computeUnary_one hb, wire_of_inRange hc hx, answering]

theorem computeBinary_inRange (op : Config → Int → Int → Int) (hy : inRange s.cfg.xlen y = true) :
    computeBinary op (some x) (some y) s = .next (answering s (.ok (some (op s.cfg x y)) false)) := by
  rw [computeBinary, computeWith_both hb, wire_of_inRange hc hx, wire_of_inRange hc hy, answerOk, answering]

end InRange

/-! ## The wrap -/

theorem wrap_eq_self_iff {xlen : Nat} (h : 0 < xlen) (e : Int) : wrap xlen e = e ↔ inRange xlen e = true :=
  ⟨fun he => he ▸ wrap_inRange h e, wrap_of_inRange h⟩

theorem exact_eq_wrap_add (xlen : Nat) (e : Int) : ∃ k : Int, e = wrap xlen e + k * ((2 ^ xlen : Nat) : Int) := by
  obtain ⟨k, hk⟩ := wrap_congr xlen e
  exact ⟨-k, by rw [hk, neg_mul, add_neg_cancel_right]⟩

/-- Settles O19: each of the five answers the wrapped exact result, and `wrap` is the identity on `MIN..MAX` alone. -/
theorem wrapIsSilent : Obligations.WrapIsSilent := by
  intro s b x y hc hb hx hy i e hmem
  have hexec : exec i s = .next (answering s (.ok (some (wrap s.cfg.xlen e)) false)) := by
    simp only [List.mem_cons, List.not_mem_nil, or_false, Prod.mk.injEq] at hmem
    obtain ⟨rfl, rfl⟩ | ⟨rfl, rfl⟩ | ⟨rfl, rfl⟩ | ⟨rfl, rfl⟩ | ⟨rfl, rfl⟩ := hmem
    · exact computeUnary_inRange hc hb hx incValue
    · exact computeUnary_inRange hc hb hx decValue
    · exact computeBinary_inRange hc hb hx addValue hy
    · exact computeBinary_inRange hc hb hx subValue hy
    · exact computeBinary_inRange hc hb hx mulValue hy
  exact ⟨wrap s.cfg.xlen e, hexec, wrap_eq_self_iff (valid_xlen_pos hc) e, exact_eq_wrap_add s.cfg.xlen e⟩

/-! ## The answer depends on the operands and the parameters alone -/

/-- One answer serves every state with the parameters `c` and a block, and giving it is all the operation does (R124). -/
def AnswersAlike (c : Config) (f : State → Host.Outcome State Fault Refusal) : Prop :=
  ∃ ans, ∀ s, s.cfg = c → s.block.isSome = true → f s = .next (answering s ans)

theorem answersAlike_raise (c : Config) (k : FaultKind) : AnswersAlike c (raise k) :=
  ⟨.fault k, fun _ _ _ => rfl⟩

theorem answersAlike_answerOk (c : Config) (v : Config → Int) :
    AnswersAlike c (fun s => answerOk (some (v s.cfg)) false s) :=
  ⟨.ok (some (v c)) false, fun _ hs _ => hs ▸ rfl⟩

theorem answersAlike_withBlock {c : Config} {f : State → Host.Outcome State Fault Refusal} (h : AnswersAlike c f) :
    AnswersAlike c (fun s => withBlock s fun _ => f s) := by
  obtain ⟨ans, hans⟩ := h
  refine ⟨ans, fun s hs hb => ?_⟩
  obtain ⟨b, hb'⟩ := Option.isSome_iff_exists.1 hb
  exact (withBlock_some hb' _).trans (hans s hs hb)

theorem answersAlike_computeUnary (c : Config) (op : Config → Int → Int) (a1 a2 : Option Int) :
    AnswersAlike c (computeUnary op a1 a2) := by
  apply answersAlike_withBlock
  split
  · exact answersAlike_raise c _
  · cases a1 with
    | none => exact answersAlike_raise c _
    | some x => exact answersAlike_answerOk c fun c => op c (wire c x)

/-- An arity-2 operation that answers alike on every two values does so whatever the presence of its operands. -/
theorem answersAlike_computeWith {c : Config} {op : State → Int → Int → Host.Outcome State Fault Refusal}
    (h : ∀ x y, AnswersAlike c fun s => op s x y) (a1 a2 : Option Int) :
    AnswersAlike c (fun s => computeWith (fun _ => op s) a1 a2 s) := by
  apply answersAlike_withBlock
  split
  · exact answersAlike_raise c _
  · match a1, a2 with
    | some x, some y =>
      obtain ⟨ans, hans⟩ := h (wire c x) (wire c y)
      refine ⟨ans, ?_⟩
      rintro s rfl hb
      exact hans s rfl hb
    | some _, none | none, _ => exact answersAlike_raise c _

theorem answersAlike_computeBinary (c : Config) (op : Config → Int → Int → Int) (a1 a2 : Option Int) :
    AnswersAlike c (computeBinary op a1 a2) :=
  answersAlike_computeWith (fun x y => answersAlike_answerOk c fun c => op c x y) a1 a2

theorem answersAlike_execDiv (c : Config) (a1 a2 : Option Int) : AnswersAlike c (execDiv a1 a2) := by
  refine answersAlike_computeWith (fun x y => ?_) a1 a2
  split
  · exact answersAlike_raise c _
  · exact answersAlike_answerOk c fun c => divValue c x y

theorem answersAlike_exec {i : Instr} (hi : returnsValue i = true) (c : Config) : AnswersAlike c (exec i) := by
  cases i with
  | inc | dec | not => exact answersAlike_computeUnary c _ _ _
  | add | sub | mul | and | or | xor | rshift | lshift => exact answersAlike_computeBinary c _ _ _
  | div => exact answersAlike_execDiv c _ _
  | cmp | regRead | regWrite | flagSet | flagGet => cases hi

/-- Settles O45: both states are given the one answer of `AnswersAlike`. -/
theorem valueOperationsArePure : Obligations.ValueOperationsArePure := by
  intro i s t s' hi hcfg hs ht h
  obtain ⟨ans, hans⟩ := answersAlike_exec hi s.cfg
  cases (hans s rfl hs).symm.trans h
  exact ⟨answering t ans, hans t hcfg.symm ht, rfl⟩

end Sys2Proof.Proofs

/-!
PROOFS. The unary operations INC, DEC and NOT (spec/42_alu_unary.md).
-/

namespace Sys2Proof.Proofs

open Sys2Proof Sys2Proof.Machine Sys2Proof.Laws

/-! ## The contract of an arity-1 operation -/

/-- An operation that is the arity-1 COMPUTE of a value function keeps the contract; what is asked of the function is that on operands
of the width it agrees with `result`, and stays in the width. -/
theorem unaryContract_of_computeUnary {op : Option Int → Option Int → Instr} {code : Nat} {value result : Config → Int → Int}
    (hexec : ∀ a1 a2, exec (op a1 a2) = computeUnary value a1 a2)
    (hencode : ∀ c a1 a2, encode c (op a1 a2) = encodeCompute c code a1 a2)
    (hvalue : ∀ c x, c.valid = true → inRange c.xlen x = true → value c x = result c x)
    (hrange : ∀ c x, c.valid = true → inRange c.xlen x = true → inRange c.xlen (result c x) = true) :
    UnaryContract op code result := by
  intro s b hc hb
  simp only [hexec, hencode]
  refine ⟨fun x hx => ⟨hrange _ x hc hx, ?_⟩, fun x y => ?_, ?_, fun y => ?_, fun x => rfl⟩
  · rw [computeUnary_inRange hc hb hx, hvalue _ x hc hx]
  · exact computeUnary_count hb (show (2 : Nat) ≠ 1 by decide)
  · exact computeUnary_count hb (show (0 : Nat) ≠ 1 by decide)
  · exact withBlock_some hb _

/-! ## INC and DEC -/

/-- A wrap before an addition is lost in the wrap after it (spec/00_scope.md R13). -/
theorem wrap_wrap_add (xlen : Nat) (e k : Int) : wrap xlen (wrap xlen e + k) = wrap xlen (e + k) := Int.bmod_add_bmod

theorem decValue_incValue {c : Config} (hc : c.valid = true) {x : Int} (hx : inRange c.xlen x = true) :
    decValue c (incValue c x) = x := by
  calc wrap c.xlen (wrap c.xlen (x + 1) + -1)
      = wrap c.xlen (x + 1 + -1) := wrap_wrap_add _ _ _
    _ = x := by rw [add_neg_cancel_right, wrap_of_inRange (valid_xlen_pos hc) hx]

theorem incValue_decValue {c : Config} (hc : c.valid = true) {x : Int} (hx : inRange c.xlen x = true) :
    incValue c (decValue c x) = x := by
  calc wrap c.xlen (wrap c.xlen (x - 1) + 1)
      = wrap c.xlen (x - 1 + 1) := wrap_wrap_add _ _ _
    _ = x := by rw [sub_add_cancel, wrap_of_inRange (valid_xlen_pos hc) hx]

/-- Settles O11: the contract of an arity-1 operation, whose value is a wrap. -/
theorem incRule : Obligations.IncRule :=
  unaryContract_of_computeUnary (value := incValue) (fun _ _ => rfl) (fun _ _ _ => rfl) (fun _ _ _ _ => rfl)
    fun _ _ hc _ => wrap_inRange (valid_xlen_pos hc) _

/-- Settles O12: the contract as for INC; the inverse law because the inner wrap is lost in the outer one (`wrap_wrap_add`). -/
theorem decRule : Obligations.DecRule := by
  refine ⟨unaryContract_of_computeUnary (value := decValue) (fun _ _ => rfl) (fun _ _ _ => rfl) (fun _ _ _ _ => rfl)
    fun _ _ hc _ => wrap_inRange (valid_xlen_pos hc) _, fun s b x hc hb hx => ?_⟩
  have hwrap : ∀ e, inRange s.cfg.xlen (wrap s.cfg.xlen e) = true := wrap_inRange (valid_xlen_pos hc)
  have hdec := computeUnary_inRange hc hb (hwrap (x + 1)) decValue
  have hinc := computeUnary_inRange hc hb (hwrap (x - 1)) incValue
  rw [← incValue, decValue_incValue hc hx] at hdec
  rw [← decValue, incValue_decValue hc hx] at hinc
  exact ⟨incValue s.cfg x, decValue s.cfg x, computeUnary_inRange hc hb hx incValue, hdec,
    computeUnary_inRange hc hb hx decValue, hinc⟩

/-! ## NOT -/

/-- `-x - 1` exchanges `MIN` and `MAX`, so it never leaves the width (spec/42_alu_unary.md R142). -/
theorem neg_sub_one_inRange {xlen : Nat} {x : Int} (hx : inRange xlen x = true) : inRange xlen (-x - 1) = true := by
  rw [inRange_iff] at *
  omega

theorem notValue_eq {c : Config} (hc : c.valid = true) {x : Int} (hx : inRange c.xlen x = true) : notValue c x = -x - 1 := by
  rw [notValue, ← toBits_not, ofBits_toBits (valid_xlen_pos hc) (neg_sub_one_inRange hx)]

/-- The bits of `-x - 1` inside the width are those of `x` complemented. -/
theorem getBit_neg_sub_one {xlen : Nat} (x : Int) {i : Nat} (hi : i < xlen) :
    getBit xlen (-x - 1) i = !getBit xlen x i := by
  rw [getBit, toBits_not, BitVec.getLsbD_not, decide_eq_true hi, Bool.true_and, getBit]

theorem unaryContract_not : UnaryContract .not 9 (fun _ x => -x - 1) :=
  unaryContract_of_computeUnary (value := notValue) (fun _ _ => rfl) (fun _ _ _ => rfl) (fun _ _ hc hx => notValue_eq hc hx)
    fun _ _ _ hx => neg_sub_one_inRange hx

/-- Settles O13: the value answered is the one of the contract, and its bits are those of `getBit_neg_sub_one`. -/
theorem notRule : Obligations.NotRule := by
  refine ⟨unaryContract_not, fun s b x hc hb hx => ?_⟩
  obtain ⟨hone, -⟩ := unaryContract_not s b hc hb
  obtain ⟨hrange, hexec⟩ := hone x hx
  exact ⟨-x - 1, hexec, hrange, fun i hi => getBit_neg_sub_one x hi⟩

end Sys2Proof.Proofs

/-!
PROOFS. The binary arithmetic ADD, SUB, MUL and DIV (spec/43_alu_arith.md).
-/

namespace Sys2Proof.Proofs

open Sys2Proof Sys2Proof.Machine Sys2Proof.Laws

/-! ## The contract of an arity-2 operation -/

/-- Every arity-2 operation counts its operands before it looks at them (spec/41_alu_dispatch.md R122). -/
theorem arityTwo_of_computeWith {op : Option Int → Option Int → Instr} {s : State} {b : Block}
    {f : Block → Int → Int → Host.Outcome State Fault Refusal} (hb : s.block = some b)
    (hexec : ∀ a1 a2, exec (op a1 a2) s = computeWith f a1 a2 s) : ArityTwo op s := by
  simp only [ArityTwo, hexec]
  refine ⟨fun x => ?_, fun y => ?_, ?_⟩
  · exact computeWith_count hb (show (1 : Nat) ≠ 2 by decide)
  · exact computeWith_count hb (show (1 : Nat) ≠ 2 by decide)
  · exact computeWith_count hb (show (0 : Nat) ≠ 2 by decide)

/-- An operation that is the arity-2 COMPUTE of a value function keeps the contract; what is asked of the function is that on
operands of the width its value is one that `result` accepts, and stays in the width. -/
theorem binaryContract_of_computeBinary {op : Option Int → Option Int → Instr} {code : Nat}
    {value : Config → Int → Int → Int} {result : Config → Int → Int → Int → Prop}
    (hexec : ∀ a1 a2, exec (op a1 a2) = computeBinary value a1 a2)
    (hencode : ∀ c a1 a2, encode c (op a1 a2) = encodeCompute c code a1 a2)
    (hvalue : ∀ c x y, c.valid = true → inRange c.xlen x = true → inRange c.xlen y = true →
      inRange c.xlen (value c x y) = true ∧ result c x y (value c x y)) :
    BinaryContract op code result := by
  intro s b hc hb
  refine ⟨fun x y hx hy => ?_, arityTwo_of_computeWith hb fun a1 a2 => congrFun (hexec a1 a2) s, fun x y => hencode _ _ _⟩
  obtain ⟨hrange, hresult⟩ := hvalue s.cfg x y hc hx hy
  exact ⟨value s.cfg x y, hrange, hresult, hexec _ _ ▸ computeBinary_inRange hc hb hx value hy⟩

/-! ## ADD, SUB and MUL -/

/-- An arity-2 operation that answers a wrapped exact result keeps its contract. -/
theorem binaryContract_wrap {op : Option Int → Option Int → Instr} {code : Nat} {exactValue : Int → Int → Int}
    (hexec : ∀ a1 a2, exec (op a1 a2) = computeBinary (fun c x y => wrap c.xlen (exactValue x y)) a1 a2)
    (hencode : ∀ c a1 a2, encode c (op a1 a2) = encodeCompute c code a1 a2) :
    BinaryContract op code fun c x y r => r = wrap c.xlen (exactValue x y) :=
  binaryContract_of_computeBinary hexec hencode fun _ _ _ hc _ _ => ⟨wrap_inRange (valid_xlen_pos hc) _, rfl⟩

/-- Settles O14: ADD wraps the exact sum. -/
theorem addRule : Obligations.AddRule :=
  binaryContract_wrap (exactValue := fun x y => x + y) (fun _ _ => rfl) fun _ _ _ => rfl

/-- Settles O15: SUB wraps the exact difference. -/
theorem subRule : Obligations.SubRule :=
  binaryContract_wrap (exactValue := fun x y => x - y) (fun _ _ => rfl) fun _ _ _ => rfl

/-- Settles O16: MUL wraps the exact product. -/
theorem mulRule : Obligations.MulRule :=
  binaryContract_wrap (exactValue := fun x y => x * y) (fun _ _ => rfl) fun _ _ _ => rfl

/-! ## The quotient rounded toward zero -/

theorem abs_tdiv (x y : Int) : |x.tdiv y| = |x| / |y| := by
  simp only [Int.abs_eq_natAbs, Int.natAbs_tdiv]
  rfl

theorem abs_tdiv_mul_abs_le (x : Int) {y : Int} (hy : y ≠ 0) : |x.tdiv y| * |y| ≤ |x| := by
  rw [abs_tdiv]
  exact Int.ediv_mul_le _ (abs_ne_zero.2 hy)

/-- No integer of larger magnitude fits. -/
theorem abs_le_abs_tdiv {x y k : Int} (hy : y ≠ 0) (hk : |k| * |y| ≤ |x|) : |k| ≤ |x.tdiv y| := by
  rw [abs_tdiv]
  exact (Int.le_ediv_iff_mul_le (abs_pos.2 hy)).2 hk

/-- The rule of signs (spec/43_alu_arith.md R153). -/
theorem tdiv_neg_iff (x y : Int) : x.tdiv y < 0 ↔ x.tdiv y ≠ 0 ∧ (x < 0 ↔ ¬ y < 0) := by
  obtain hx | hx := lt_or_ge x 0 <;> obtain hy | hy := lt_or_ge y 0
  · have := Int.tdiv_nonneg_of_nonpos_of_nonpos hx.le hy.le
    omega
  · have := Int.tdiv_nonneg (neg_nonneg.2 hx.le) hy
    rw [Int.neg_tdiv] at this
    omega
  · have := Int.tdiv_nonpos_of_nonneg_of_nonpos hx hy.le
    omega
  · have := Int.tdiv_nonneg hx hy
    omega

/-- `MIN / -1` is the only quotient outside the width (spec/43_alu_arith.md R154). -/
theorem tdiv_inRange {xlen : Nat} {x y : Int} (hx : inRange xlen x = true) (hy : y ≠ 0)
    (hmin : ¬ (x = minInt xlen ∧ y = -1)) : inRange xlen (x.tdiv y) = true := by
  have hle := abs_tdiv_mul_abs_le x hy
  have hpos : (0 : Int) < ((2 ^ (xlen - 1) : Nat) : Int) := by exact_mod_cast Nat.two_pow_pos (xlen - 1)
  rw [inRange_iff] at *
  rw [minInt] at hmin
  generalize ((2 ^ (xlen - 1) : Nat) : Int) = w at *
  obtain rfl | rfl | hy2 : y = 1 ∨ y = -1 ∨ 2 ≤ |y| := by
    rw [le_abs]
    omega
  · simpa using hx
  · rw [Int.tdiv_neg, Int.tdiv_one]
    omega
  · have htwice : |x.tdiv y| * 2 ≤ |x| := (mul_le_mul_of_nonneg_left hy2 (abs_nonneg _)).trans hle
    have habs : |x| ≤ w := abs_le.2 ⟨hx.1, hx.2.le⟩
    have hlt : |x.tdiv y| < w := by omega
    exact ⟨(abs_lt.1 hlt).1.le, (abs_lt.1 hlt).2⟩

theorem abs_tmod_lt_abs (x : Int) {y : Int} (hy : y ≠ 0) : |x.tmod y| < |y| := by
  simp only [Int.abs_eq_natAbs, Int.natAbs_tmod]
  exact_mod_cast Nat.mod_lt _ (Int.natAbs_pos.2 hy)

/-- The remainder takes the dividend's sign (spec/43_alu_arith.md R154). -/
theorem tmod_eq_zero_or_neg_iff (x y : Int) : x.tmod y = 0 ∨ (x.tmod y < 0 ↔ x < 0) := by
  obtain hx | hx := lt_or_ge x 0
  · have := Int.tmod_nonneg y (neg_nonneg.2 hx.le)
    rw [Int.neg_tmod] at this
    omega
  · have := Int.tmod_nonneg y hx
    omega

/-! ## DIV -/

/-- The zero divisor is found whatever the dividend, once both operands are there (spec/43_alu_arith.md R153). -/
theorem execDiv_zero {s : State} {b : Block} (hb : s.block = some b) (x : Int) :
    execDiv (some x) (some 0) s = .next (answering s (.fault .divisionByZero)) := by
  have hwire : wire s.cfg 0 = 0 := wrap_zero s.cfg.xlen
  rw [execDiv, computeWith_both hb, if_pos hwire, raise, answering]

theorem execDiv_inRange {s : State} {b : Block} (hc : s.cfg.valid = true) (hb : s.block = some b) {x y : Int}
    (hx : inRange s.cfg.xlen x = true) (hy : inRange s.cfg.xlen y = true) (hy0 : y ≠ 0) :
    execDiv (some x) (some y) s = .next (answering s (.ok (some (wrap s.cfg.xlen (x.tdiv y))) false)) := by
  rw [execDiv, computeWith_both hb, wire_of_inRange hc hx, wire_of_inRange hc hy, if_neg hy0, answerOk, answering, divValue]

theorem arityTwo_div {s : State} {b : Block} (hb : s.block = some b) : ArityTwo .div s :=
  arityTwo_of_computeWith hb fun a1 a2 => show execDiv a1 a2 s = _ from rfl

/-- Settles O17: the quotient is `Int.tdiv`, which R153's three properties describe. -/
theorem divRule : Obligations.DivRule := by
  intro s b hc hb
  refine ⟨execDiv_zero hb, fun x y hx hy hy0 => ?_, arityTwo_div hb, fun _ _ => rfl⟩
  exact ⟨x.tdiv y, abs_tdiv_mul_abs_le x hy0, fun _ => abs_le_abs_tdiv hy0, tdiv_neg_iff x y,
    execDiv_inRange hc hb hx hy hy0⟩

/-- Settles O18: outside `MIN / -1` the wrap leaves the quotient as it is, and the remainder is `Int.tmod`. -/
theorem divRelation : Obligations.DivRelation := by
  intro s b x y hc hb hx hy hy0 hmin
  have hq : wrap s.cfg.xlen (x.tdiv y) = x.tdiv y := wrap_of_inRange (valid_xlen_pos hc) (tdiv_inRange hx hy0 hmin)
  refine ⟨x.tdiv y, x.tmod y, ?_, (Int.tdiv_mul_add_tmod x y).symm, abs_tmod_lt_abs x hy0, tmod_eq_zero_or_neg_iff x y⟩
  exact (execDiv_inRange hc hb hx hy hy0).trans (by rw [hq])

end Sys2Proof.Proofs

/-!
PROOFS. The bitwise operations AND, OR, XOR and the shifts RSHIFT, LSHIFT (spec/44_alu_logic_shift.md).
-/

namespace Sys2Proof.Proofs

open Sys2Proof Sys2Proof.Machine Sys2Proof.Laws

/-! ## AND, OR and XOR -/

/-- An arity-2 operation that answers a function of the two patterns works bit by bit as that function does. -/
theorem binaryContract_bitwise {op : Option Int → Option Int → Instr} {code : Nat}
    {onPatterns : (n : Nat) → BitVec n → BitVec n → BitVec n} {onBits : Bool → Bool → Bool}
    (hexec : ∀ a1 a2, exec (op a1 a2) =
      computeBinary (fun c x y => ofBits (onPatterns c.xlen (toBits c.xlen x) (toBits c.xlen y))) a1 a2)
    (hencode : ∀ c a1 a2, encode c (op a1 a2) = encodeCompute c code a1 a2)
    (hbits : ∀ n (p q : BitVec n) i, (onPatterns n p q).getLsbD i = onBits (p.getLsbD i) (q.getLsbD i)) :
    BinaryContract op code fun c x y r =>
      ∀ i, i < c.xlen → getBit c.xlen r i = onBits (getBit c.xlen x i) (getBit c.xlen y i) :=
  binaryContract_of_computeBinary hexec hencode fun _ _ _ hc _ _ =>
    ⟨ofBits_inRange (valid_xlen_pos hc) _, fun i _ => (getBit_ofBits _ i).trans (hbits _ _ _ i)⟩

/-- Settles O20: a bit of the conjunction of two patterns is the conjunction of their bits. -/
theorem andRule : Obligations.AndRule :=
  binaryContract_bitwise (onPatterns := fun _ p q => p &&& q) (fun _ _ => rfl) (fun _ _ _ => rfl)
    fun _ _ _ _ => BitVec.getLsbD_and

/-- Settles O21: a bit of the disjunction of two patterns is the disjunction of their bits. -/
theorem orRule : Obligations.OrRule :=
  binaryContract_bitwise (onPatterns := fun _ p q => p ||| q) (fun _ _ => rfl) (fun _ _ _ => rfl)
    fun _ _ _ _ => BitVec.getLsbD_or

/-- Settles O22: a bit of the exclusive or of two patterns is the exclusive or of their bits. -/
theorem xorRule : Obligations.XorRule :=
  binaryContract_bitwise (onPatterns := fun _ p q => p ^^^ q) (fun _ _ => rfl) (fun _ _ _ => rfl)
    fun _ _ _ _ => BitVec.getLsbD_xor

/-! ## The right shift -/

/-- The two bounds that make an integer the floor of `x / 2^k` (spec/44_alu_logic_shift.md R163). -/
theorem floor_shr (x : Int) (k : Nat) :
    x / (2 ^ k : Nat) * (2 ^ k : Nat) ≤ x ∧ x < (x / (2 ^ k : Nat) + 1) * (2 ^ k : Nat) := by
  have hpos : (0 : Int) < (2 ^ k : Nat) := by exact_mod_cast Nat.two_pow_pos k
  exact ⟨Int.ediv_mul_le x hpos.ne', Int.lt_ediv_add_one_mul_self x hpos⟩

/-- The sign fills the vacated positions (spec/44_alu_logic_shift.md R163). -/
theorem getBit_shr {xlen : Nat} (h : 0 < xlen) {x : Int} (hx : inRange xlen x = true) (k : Nat) {i : Nat} (hi : i < xlen) :
    getBit xlen (x / (2 ^ k : Nat)) i = if i + k < xlen then getBit xlen x (i + k) else getBit xlen x (xlen - 1) := by
  have hinside : (!decide (xlen ≤ i)) = true := by simpa using hi
  rw [getBit, toBits_shr h hx, BitVec.getLsbD_sshiftRight, hinside, Bool.true_and, Nat.add_comm k i,
    BitVec.msb_eq_getLsbD_last, getBit, getBit]

/-- A power of two divides two to the power it is: what makes `v mod XLEN` the low bits of the pattern of `v`. -/
theorem valid_xlen_dvd_two_pow {c : Config} (hc : c.valid = true) : c.xlen ∣ 2 ^ c.xlen := by
  obtain ⟨-, hlog, -⟩ := valid_iff.1 hc
  calc c.xlen = 2 ^ c.xlen.log2 := hlog.symm
    _ ∣ 2 ^ c.xlen := pow_dvd_pow 2 (Nat.log2_le_self _)

theorem toNat_toBits_emod {xlen m : Nat} (hm : m ∣ 2 ^ xlen) (v : Int) :
    (((toBits xlen v).toNat % m : Nat) : Int) = v % m := by
  have hpos : ((2 ^ xlen : Nat) : Int) ≠ 0 := by exact_mod_cast (Nat.two_pow_pos xlen).ne'
  rw [toBits, BitVec.toNat_ofInt, Int.natCast_mod, Int.toNat_of_nonneg (Int.emod_nonneg v hpos),
    Int.emod_emod_of_dvd v (Int.natCast_dvd_natCast.2 hm)]

/-- The default distance (spec/44_alu_logic_shift.md R163, D5). -/
theorem shamt_default {c : Config} (h : c.shamtTable = []) (v : Int) : shamt c v = (v % (c.xlen : Int)).toNat := by
  rw [shamt, h, List.find?_nil]

theorem natCast_shamt_default {c : Config} (hc : c.valid = true) (h : c.shamtTable = []) (v : Int) :
    (shamt c v : Int) = v % (c.xlen : Int) := by
  have hpos : (c.xlen : Int) ≠ 0 := by exact_mod_cast (valid_xlen_pos hc).ne'
  rw [shamt_default h, Int.toNat_of_nonneg (Int.emod_nonneg v hpos)]

/-- The default distance is `v mod XLEN`, which is below `XLEN` and, `XLEN` being a power of two, what the low bits of the pattern
of `v` write (spec/44_alu_logic_shift.md R163). -/
theorem shamt_default_spec {c : Config} (hc : c.valid = true) (h : c.shamtTable = []) (v : Int) :
    shamt c v < c.xlen ∧ (shamt c v : Int) = v % (c.xlen : Int) ∧ shamt c v = (toBits c.xlen v).toNat % c.xlen := by
  have hmod := natCast_shamt_default hc h v
  have hbits : shamt c v = (toBits c.xlen v).toNat % c.xlen :=
    Int.ofNat_inj.1 (hmod.trans (toNat_toBits_emod (valid_xlen_dvd_two_pow hc) v).symm)
  exact ⟨hbits ▸ Nat.mod_lt _ (valid_xlen_pos hc), hmod, hbits⟩

/-- Settles O23: the floor division stays in the width whatever the distance, and it is the arithmetic right shift of the pattern. -/
theorem rshiftRule : Obligations.RshiftRule := by
  refine ⟨?_, fun c v hc h => shamt_default_spec hc h v⟩
  refine binaryContract_of_computeBinary (value := rshiftValue) (fun _ _ => rfl) (fun _ _ _ => rfl) fun c x y hc hx _ => ?_
  obtain ⟨hle, hlt⟩ := floor_shr x (shamt c y)
  exact ⟨shr_inRange hx _, hle, hlt, fun i hi => getBit_shr (valid_xlen_pos hc) hx _ hi⟩

/-! ## LSHIFT -/

/-- The product by a power of two is the left shift of the pattern (spec/44_alu_logic_shift.md R165). -/
theorem toBits_shl (xlen : Nat) (x : Int) (k : Nat) : toBits xlen (x * (2 ^ k : Nat)) = toBits xlen x <<< k := by
  have htwoPow : BitVec.ofNat xlen (2 ^ k) = BitVec.twoPow xlen k :=
    BitVec.eq_of_toNat_eq ((BitVec.toNat_ofNat _ _).trans (BitVec.toNat_twoPow _ _).symm)
  rw [toBits, BitVec.ofInt_mul, BitVec.ofInt_natCast, htwoPow, BitVec.mul_twoPow_eq_shiftLeft, toBits]

/-- Zeros fill the vacated positions (spec/44_alu_logic_shift.md R165). -/
theorem getBit_shl {xlen : Nat} (x : Int) (k : Nat) {i : Nat} (hi : i < xlen) :
    getBit xlen (x * (2 ^ k : Nat)) i = (decide (k ≤ i) && getBit xlen x (i - k)) := by
  rw [getBit, toBits_shl, BitVec.getLsbD_shiftLeft, decide_eq_true hi, Bool.true_and, ← decide_not, getBit]
  simp only [not_lt]

theorem lshiftValue_default {c : Config} (h : c.lshiftFixed = false) (x y : Int) : lshiftValue c x y = rshiftValue c x y := by
  rw [lshiftValue, h, if_neg Bool.false_ne_true, rshiftValue]

theorem lshiftValue_fixed {c : Config} (h : c.lshiftFixed = true) (x y : Int) :
    lshiftValue c x y = wrap c.xlen (x * (2 ^ shamt c y : Nat)) := by
  rw [lshiftValue, if_pos h]

theorem lshiftValue_inRange {c : Config} (hc : c.valid = true) {x : Int} (hx : inRange c.xlen x = true) (y : Int) :
    inRange c.xlen (lshiftValue c x y) = true := by
  cases h : c.lshiftFixed with
  | false => exact lshiftValue_default h x y ▸ shr_inRange hx _
  | true => exact lshiftValue_fixed h x y ▸ wrap_inRange (valid_xlen_pos hc) _

/-- LSHIFT keeps the contract of any result that its value meets. -/
theorem binaryContract_lshift {result : Config → Int → Int → Int → Prop}
    (h : ∀ c x y, result c x y (lshiftValue c x y)) : BinaryContract .lshift 11 result :=
  binaryContract_of_computeBinary (value := lshiftValue) (fun _ _ => rfl) (fun _ _ _ => rfl)
    fun c x y hc hx _ => ⟨lshiftValue_inRange hc hx y, h c x y⟩

/-- COMPUTE looks at the value function at the parameters of the state alone. -/
theorem computeBinary_congr {value value' : Config → Int → Int → Int} {s : State}
    (h : ∀ x y, value s.cfg x y = value' s.cfg x y) (a1 a2 : Option Int) :
    computeBinary value a1 a2 s = computeBinary value' a1 a2 s := by
  simp only [computeBinary, h]

/-- Settles O25: the wrap loses no bit of the width, and the product's bits are those of `getBit_shl`. -/
theorem lshiftFixedRule : Obligations.LshiftFixedRule :=
  binaryContract_lshift fun c x y hfixed => by
    rw [lshiftValue_fixed hfixed]
    exact ⟨rfl, fun i hi => (getBit_wrap _ _ i).trans (getBit_shl x _ hi)⟩

/-- Settles O24: unless `LSHIFT_FIXED` the value function of LSHIFT is the one of RSHIFT. -/
theorem lshiftRule : Obligations.LshiftRule := by
  refine ⟨binaryContract_lshift fun c x y => ⟨fun hdefault => ?_, fun hfixed => lshiftValue_fixed hfixed x y⟩,
    fun s a1 a2 hdefault => computeBinary_congr (lshiftValue_default hdefault) a1 a2⟩
  exact lshiftValue_default hdefault x y ▸ floor_shr x (shamt c y)

end Sys2Proof.Proofs

/-!
PROOFS. The compare operation CMP (spec/45_alu_compare.md).
-/

namespace Sys2Proof.Proofs

open Sys2Proof Sys2Proof.Machine Sys2Proof.Laws

/-! ## The difference CMP judges -/

theorem cmpDiff_exact {c : Config} (h : c.cmpWrap = false) (x y : Int) : cmpDiff c x y = x - y := by
  rw [cmpDiff, h, if_neg Bool.false_ne_true]

theorem cmpDiff_wrapped {c : Config} (h : c.cmpWrap = true) (x y : Int) : cmpDiff c x y = wrap c.xlen (x - y) := by
  rw [cmpDiff, if_pos h]

theorem eq_cmpDiff {c : Config} {x y d : Int} (hexact : c.cmpWrap = false → d = x - y)
    (hwrapped : c.cmpWrap = true → d = wrap c.xlen (x - y)) : d = cmpDiff c x y := by
  cases h : c.cmpWrap with
  | false => rw [hexact h, cmpDiff_exact h]
  | true => rw [hwrapped h, cmpDiff_wrapped h]

/-! ## The flag of a difference -/

theorem cmpFlag_of_neg {d : Int} (h : d < 0) : cmpFlag d = .negative := if_pos h

theorem cmpFlag_of_pos {d : Int} (h : 0 < d) : cmpFlag d = .carry := by
  rw [cmpFlag, if_neg h.not_gt, if_pos h]

theorem cmpFlag_zero : cmpFlag 0 = .zero := rfl

/-- Each flag is the one of the differences of its sign (spec/45_alu_compare.md R170). -/
theorem eq_cmpFlag_iff (d : Int) :
    (.negative = cmpFlag d ↔ d < 0) ∧ (.carry = cmpFlag d ↔ 0 < d) ∧ (.zero = cmpFlag d ↔ d = 0) := by
  obtain h | rfl | h := lt_trichotomy d 0
  · simp [cmpFlag_of_neg h, h, h.not_gt, h.ne]
  · simp [cmpFlag_zero]
  · simp [cmpFlag_of_pos h, h, h.not_gt, h.ne']

section Status

variable {c : Config} (hc : c.valid = true) (v x y : Int)
include hc

theorem getFlag_cmpStatus_sign :
    getFlag c (cmpStatus c v x y) .negative = decide (cmpDiff c x y < 0) ∧
    getFlag c (cmpStatus c v x y) .carry = decide (0 < cmpDiff c x y) ∧
    getFlag c (cmpStatus c v x y) .zero = decide (cmpDiff c x y = 0) := by
  simp only [getFlag_cmpStatus hc, decide_eq_decide]
  exact eq_cmpFlag_iff _

/-- After CMP exactly one flag is 1 (spec/45_alu_compare.md R172). -/
theorem exactly_one_flag_cmpStatus : ∃ f, ∀ g, getFlag c (cmpStatus c v x y) g = true ↔ g = f :=
  ⟨cmpFlag (cmpDiff c x y), fun g => by rw [getFlag_cmpStatus hc, decide_eq_true_iff]⟩

end Status

/-! ## CMP -/

theorem exec_cmp_inRange {s : State} {b : Block} (hc : s.cfg.valid = true) (hb : s.block = some b) {x y : Int}
    (hx : inRange s.cfg.xlen x = true) (hy : inRange s.cfg.xlen y = true) : exec (.cmp (some x) (some y)) s =
    .next (answering (s.setBlock (b.writeCell 0 (cmpStatus s.cfg b.sr x y))) (.ok none false)) := by
  rw [exec_cmp_both hb, wire_of_inRange hc hx, wire_of_inRange hc hy]

theorem arityTwo_cmp {s : State} {b : Block} (hb : s.block = some b) : ArityTwo .cmp s :=
  arityTwo_of_computeWith hb fun _ _ => by rw [exec, execCmp]

/-- Settles O26: cell 0 takes the value `cmpStatus`, of which every flag and every other bit is known. -/
theorem cmpRule : Obligations.CmpRule := by
  intro s b hc hb
  refine ⟨fun x y hx hy => ?_, arityTwo_cmp hb, fun _ _ => rfl⟩
  refine ⟨cmpStatus s.cfg b.sr x y, exec_cmp_inRange hc hb hx hy, cmpStatus_inRange (valid_xlen_pos hc) _ _ _,
    fun d hexact hwrapped => ?_, fun i hi hother => getBit_cmpStatus_other _ _ _ hi hother⟩
  rw [eq_cmpDiff hexact hwrapped]
  exact getFlag_cmpStatus_sign hc _ _ _

/-- Settles O27: the sign of the exact difference is the signed order of the operands. -/
theorem cmpOutcome : Obligations.CmpOutcome := by
  intro s b x y hc hexact hb hx hy
  obtain ⟨hneg, hcarry, hzero⟩ := getFlag_cmpStatus_sign hc b.sr x y
  rw [cmpDiff_exact hexact] at hneg hcarry hzero
  refine ⟨_, _, exec_cmp_inRange hc hb hx hy, rfl, writeCell_zero_srWritten _ _, ?_⟩
  rw [writeCell_zero_sr]
  exact ⟨hzero.trans (decide_eq_decide.2 sub_eq_zero), hcarry.trans (decide_eq_decide.2 sub_pos),
    hneg.trans (decide_eq_decide.2 sub_neg), exactly_one_flag_cmpStatus hc _ _ _⟩

/-! ## The sign of the exact difference in the wrapped one -/

/-- The wrap of a difference of two numbers of the width loses nothing, or the operands have opposite signs and the wrapped
difference has the sign of the subtrahend (spec/45_alu_compare.md R174). -/
theorem wrap_sub_cases {xlen : Nat} (h : 0 < xlen) {x y : Int} (hx : inRange xlen x = true) (hy : inRange xlen y = true) :
    wrap xlen (x - y) = x - y ∨ (0 ≤ x ∧ y < 0 ∧ wrap xlen (x - y) < 0) ∨ (x < 0 ∧ 0 ≤ y ∧ 0 ≤ wrap xlen (x - y)) := by
  rw [inRange_iff] at hx hy
  have hdouble := two_pow_pred_double h
  have hdown : wrap xlen (x - y - (2 ^ xlen : Nat)) = wrap xlen (x - y) := Int.sub_bmod_right _ _
  have hup : wrap xlen (x - y + (2 ^ xlen : Nat)) = wrap xlen (x - y) := Int.add_bmod_right _ _
  obtain hlow | hhigh | hin : x - y < -((2 ^ (xlen - 1) : Nat) : Int) ∨ ((2 ^ (xlen - 1) : Nat) : Int) ≤ x - y ∨
      inRange xlen (x - y) = true := by
    rw [inRange_iff]
    omega
  · have hwrap : wrap xlen (x - y + (2 ^ xlen : Nat)) = x - y + (2 ^ xlen : Nat) :=
      wrap_of_inRange h (by rw [inRange_iff]; omega)
    exact .inr (.inr (by omega))
  · have hwrap : wrap xlen (x - y - (2 ^ xlen : Nat)) = x - y - (2 ^ xlen : Nat) :=
      wrap_of_inRange h (by rw [inRange_iff]; omega)
    exact .inr (.inl (by omega))
  · exact .inl (wrap_of_inRange h hin)

/-- The exact difference has the sign of the wrapped one, corrected by the subtractor's overflow (spec/45_alu_compare.md R174). -/
theorem decide_sub_neg_eq_xor_overflow {xlen : Nat} (h : 0 < xlen) {x y : Int} (hx : inRange xlen x = true)
    (hy : inRange xlen y = true) : decide (x - y < 0) = (decide (wrap xlen (x - y) < 0) ^^
      ((decide (x < 0) != decide (y < 0)) && (decide (wrap xlen (x - y) < 0) != decide (x < 0)))) := by
  obtain hwrap | ⟨hx0, hy0, hneg⟩ | ⟨hx0, hy0, hnonneg⟩ := wrap_sub_cases h hx hy
  · have hnoOverflow : (x < 0 ↔ y < 0) ∨ (x - y < 0 ↔ x < 0) := by omega
    obtain hsame | hsame := hnoOverflow <;>
      simp only [hwrap, hsame, bne_self_eq_false, Bool.false_and, Bool.and_false, Bool.xor_false]
  · have hdiff : ¬ x - y < 0 := by omega
    simp [hdiff, hx0.not_gt, hy0, hneg]
  · have hdiff : x - y < 0 := by omega
    simp [hdiff, hx0, hy0.not_gt, hnonneg.not_gt]

/-- Settles O28: on operands of the width the highest bit is the sign. -/
theorem cmpWrapAgainstExact : Obligations.CmpWrapAgainstExact := by
  intro c x y hc hx hy
  have hpos := valid_xlen_pos hc
  rw [cmpDiff_wrapped rfl, cmpDiff_exact rfl, getBit_top hpos hx, getBit_top hpos hy, getBit_top hpos (wrap_inRange hpos _)]
  exact ⟨wrap_of_inRange hpos, decide_sub_neg_eq_xor_overflow hpos hx hy⟩

end Sys2Proof.Proofs

/-!
PROOFS. Faults (spec/60_exceptions.md): an answer `Fault(k)` changes nothing else, the command after it runs as if the faulting one had
not been issued, and a control unit that keeps its duties never meets a stop.
-/

namespace Sys2Proof.Proofs

open Sys2Proof Sys2Proof.Machine Sys2Proof.Laws

/-! ## What the control unit will present -/

theorem exec_inputs {i : Instr} {s s' : State} (h : exec i s = .next s') : s'.inputs = s.inputs := by
  obtain ⟨b, -, he⟩ := exec_effect h
  cases he <;> rfl

theorem perform_inputs {d : Decoded} {s s' : State} (h : perform d s = .next s') : s'.inputs = s.inputs := by
  cases d with
  | idle => cases h; rfl
  | instr i => exact exec_inputs h
  | unknownOpCode code =>
    obtain ⟨-, -, rfl⟩ := computeUnknown_next h
    rfl
  | reserved cmd => cases h

/-- No input reaches what comes after it. -/
theorem accept_inputs {inp : Input} {s s' : State} (h : accept inp s = .next s') : s'.inputs = s.inputs := by
  match inp with
  | .construct n => obtain ⟨-, rfl⟩ | ⟨-, -, rfl⟩ := construct_next h <;> rfl
  | .present true p =>
    obtain ⟨b, -, rfl⟩ := assertReset_next h
    rfl
  | .present false p => exact perform_inputs h

theorem step_inputs {s s' : State} (h : step s = .next s') : s'.inputs = s.inputs.tail := by
  cases hin : s.inputs with
  | nil => cases (step_of_nil hin).symm.trans h; rfl
  | cons inp rest => exact accept_inputs ((step_of_cons hin).symm.trans h)

/-! ## A conforming control unit -/

theorem conforming_construct {c : Config} {n : Int} :
    conforming c (.construct n) = true ↔ 0 ≤ n ∧ n ≤ (c.maxCount : Int) := decide_eq_true_iff

theorem conforming_command {c : Config} {p : Port} : conforming c (.present false p) = true ↔ p.cmd.toNat < 6 :=
  decide_eq_true_iff

/-- What a conforming run keeps: the state is well formed, a block exists, and everything still to be presented is conforming
(spec/70_reset_and_hazards.md R213, R214). -/
structure Secure (s : State) : Prop where
  wf : s.wf = true
  block : s.block ≠ none
  inputs : ∀ inp ∈ s.inputs, conforming s.cfg inp = true

/-- `Fault` has no constructor, so what is not refused is performed. -/
theorem exists_next_of_not_refused {o : Host.Outcome State Fault Refusal} (h : ¬ ∃ r, o = .refused r) : ∃ s', o = .next s' := by
  cases o with
  | next s' => exact ⟨s', rfl⟩
  | fault r => exact nomatch r
  | refused r => exact absurd ⟨r, rfl⟩ h

/-- Each of the three refusals of `refusedExactly` needs a missing block or an input that is not conforming. -/
theorem Secure.exists_step {s : State} (hs : Secure s) : ∃ s', step s = .next s' := by
  refine exists_next_of_not_refused fun hrefused => ?_
  have hhead : ∀ {inp rest}, s.inputs = inp :: rest → conforming s.cfg inp = true :=
    fun hin => hs.inputs _ (hin ▸ List.mem_cons_self)
  obtain ⟨n, rest, hin, hbad⟩ | ⟨p, rest, hin, hnone⟩ | ⟨p, rest, hin, hbad⟩ := (refusedExactly s).1 hrefused
  · have hvalid := (State_wf_iff.1 hs.wf).1
    obtain ⟨-, hn⟩ := conforming_construct.1 (hhead hin)
    obtain hinvalid | hbig := hbad
    · simp [hvalid] at hinvalid
    · omega
  · exact hs.block hnone
  · have hcmd := conforming_command.1 (hhead hin)
    obtain hreserved | ⟨-, hnone⟩ := hbad
    · omega
    · exact hs.block hnone

/-- A conforming construction is not negative, and only a negative one leaves no block (spec/40_regfile_commands.md R100). -/
theorem accept_keeps_block {inp : Input} {s s' : State} (hinp : conforming s.cfg inp = true) (hb : s.block ≠ none)
    (h : accept inp s = .next s') : s'.block ≠ none := by
  cases inp with
  | construct n =>
    obtain ⟨hn, -⟩ := conforming_construct.1 hinp
    obtain ⟨hneg, -⟩ | ⟨-, -, rfl⟩ := construct_next h
    · omega
    · exact Option.some_ne_none _
  | present rst p =>
    have hcount := accept_present_count h
    contrapose! hb
    simpa [hb] using hcount.symm

theorem Secure.of_step {s s' : State} (hs : Secure s) (h : step s = .next s') : Secure s' := by
  refine ⟨step_wf hs.wf h, ?block, ?inputs⟩
  case block =>
    cases hin : s.inputs with
    | nil => cases (step_of_nil hin).symm.trans h; exact hs.block
    | cons inp rest =>
      rw [step_of_cons hin] at h
      exact accept_keeps_block (s := s.take rest) (hs.inputs inp (hin ▸ List.mem_cons_self)) hs.block h
  case inputs =>
    rw [step_inputs h, (parametersFixed s s' h).1]
    exact fun inp hmem => hs.inputs inp (List.mem_of_mem_tail hmem)

theorem Secure.safeFor (k : Nat) {s : State} (hs : Secure s) : SafeFor k s := by
  induction k generalizing s with
  | zero => trivial
  | succ k ih =>
    obtain ⟨s', hstep⟩ := hs.exists_step
    exact ⟨s', hstep, ih (hs.of_step hstep)⟩

/-- Settles O53: `Secure` gives a next state and is kept by the step that leads to it. -/
theorem conformingRunIsSafe : Obligations.ConformingRunIsSafe := fun k _ hwf hb hin =>
  Secure.safeFor k ⟨hwf, Option.isSome_iff_ne_none.1 hb, hin⟩

/-! ## A fault is precise -/

/-- Of the effects of a command only the first answers a fault. -/
theorem exec_fault {i : Instr} {s s' : State} {k : FaultKind} (h : exec i s = .next s') (hk : s'.answer = some (.fault k)) :
    s' = answering s (.fault k) := by
  obtain ⟨b, -, he⟩ := exec_effect h
  cases he with
  | faulted l => cases hk; rfl
  | answered v _ => cases hk
  | wrote _ => cases hk

theorem computeUnknown_fault {s s' : State} {k : FaultKind} (h : computeUnknown s = .next s')
    (hk : s'.answer = some (.fault k)) : s' = answering s (.fault k) := by
  obtain ⟨-, -, rfl⟩ := computeUnknown_next h
  cases hk
  rfl

/-- A construction that faults takes the block away (spec/40_regfile_commands.md R100): no change where there is none. -/
theorem construct_fault {n : Int} {s s' : State} {k : FaultKind} (hb : s.block = none) (h : construct n s = .next s')
    (hk : s'.answer = some (.fault k)) : s' = answering s (.fault k) := by
  obtain ⟨-, rfl⟩ | ⟨-, -, rfl⟩ := construct_next h
  · cases hk
    rw [answering, hb]
  · cases hk

/-- IDLE answers nothing, so no fault comes of it where none was answered yet (spec/30_encoding.md R71). -/
theorem perform_fault {d : Decoded} {s s' : State} {k : FaultKind} (hs : s.answer = none) (h : perform d s = .next s')
    (hk : s'.answer = some (.fault k)) : s' = answering s (.fault k) := by
  cases d with
  | idle => cases h; cases hs.symm.trans hk
  | instr i => exact exec_fault h hk
  | unknownOpCode code => exact computeUnknown_fault h hk
  | reserved cmd => cases h

/-- Nor does a fault come of the reset input, which is no command (spec/70_reset_and_hazards.md R211). -/
theorem accept_fault {inp : Input} {s s' : State} {k : FaultKind} (hs : s.answer = none)
    (hconstruct : ∀ n, inp = .construct n → s.block = none) (h : accept inp s = .next s')
    (hk : s'.answer = some (.fault k)) : s' = answering s (.fault k) := by
  match inp with
  | .construct n => exact construct_fault (hconstruct n rfl) h hk
  | .present true p =>
    obtain ⟨b, -, rfl⟩ := assertReset_next h
    cases hs.symm.trans hk
  | .present false p => exact perform_fault hs h hk

theorem step_fault {s s' : State} {k : FaultKind} (h : step s = .next s') (hk : s'.answer = some (.fault k))
    (hconstruct : ∀ n rest, s.inputs = .construct n :: rest → s.block = none) :
    s' = answering (s.take s.inputs.tail) (.fault k) := by
  cases hin : s.inputs with
  | nil => cases (step_of_nil hin).symm.trans h; cases hk
  | cons inp rest =>
    have hnone : ∀ n, inp = .construct n → (s.take rest).block = none := fun n hn => hconstruct n rest (hn ▸ hin)
    exact accept_fault (take_answer s rest) hnone ((step_of_cons hin).symm.trans h) hk

/-- Settles O38: of a command by `exec_effect`, and of a step by the operation its input selects. -/
theorem faultChangesNothing : Obligations.FaultChangesNothing := ⟨fun _ _ _ _ => exec_fault, fun _ _ _ => step_fault⟩

/-! ## After a fault -/

/-- The answer of the step before is no input of a step (spec/10_state.md R34). -/
theorem step_answer (s : State) (a : Option Answer) : step { s with answer := a } = step s := rfl

/-- Settles O39: the state after the fault differs from the one before it in the answer alone, which neither a command nor a step
reads. -/
theorem afterFault : Obligations.AfterFault := by
  refine ⟨?command, ?step⟩
  case command =>
    intro i j s s' k h hk
    rw [exec_fault h hk, answering, exec_answer]
  case step =>
    intro s s' k h hk hconstruct later
    rw [step_fault h hk hconstruct]
    exact step_answer { s with inputs := later } (some (.fault k))

end Sys2Proof.Proofs

/-!
PROOFS. The reset input (spec/70_reset_and_hazards.md): what a step makes of a presentation with `rst` asserted.
-/

namespace Sys2Proof.Proofs

open Sys2Proof Sys2Proof.Machine Sys2Proof.Laws

/-- The forward form of `assertReset_next`: where a block exists the reset input always acts. -/
theorem assertReset_of_block {s : State} {b : Block} (hb : s.block = some b) :
    assertReset s = .next (s.setBlock (Block.fresh b.n)) :=
  withBlock_some hb _

/-- The command of the port is nowhere on the right: it is abandoned (spec/70_reset_and_hazards.md R211). -/
theorem step_of_reset {s : State} {b : Block} {p : Port} {rest : List Input} (hin : s.inputs = .present true p :: rest)
    (hb : s.block = some b) : step s = .next ((s.take rest).setBlock (Block.fresh b.n)) := by
  rw [step_of_cons hin, accept_reset, assertReset_of_block ((take_block s rest).trans hb)]

/-- Settles O48: the block after the reset input is a fresh one of the same count. -/
theorem resetInputRule : Obligations.ResetInputRule := fun s b _ _ hin hb =>
  ⟨Block.fresh b.n, step_of_reset hin hb, fresh_n b.n, fresh_readCell b.n, fresh_sr b.n, getFlag_zero s.cfg⟩

end Sys2Proof.Proofs
